-- ==== Sys2Proof/Word.lean ====
section
/-!
DEFINITION. The word types of the nxjain A64 core (00_scope.md R8, R9, R100).
-/

namespace Sys2Proof

/-- One byte of memory (R60). -/
abbrev Byte := BitVec 8

/-- A 64-bit general register, program counter or address (R30, R36). -/
abbrev Word := BitVec 64

/-- One 32-bit instruction word (R100). -/
abbrev InstrWord := BitVec 32

/-- A 5-bit register field; index 31 is the zero register (R31, R101). -/
abbrev RegIdx := BitVec 5

end Sys2Proof
end

