-- ==== Sys2Proof/Syntax.lean ====
section
/-!
DEFINITION. The instructions of spec/opcode_table.json, one constructor per row, with their operand types
(30_encoding.md R104 to R132).
-/

namespace Sys2Proof

/-- The operation width chosen by `sf`: `w32` is `sf = 0`, `w64` is `sf = 1` (R11, R132). -/
inductive Width
  | w32
  | w64
  deriving DecidableEq, Repr

/-- `W`, the number of bits of the operation (R11). -/
def Width.bits : Width → Nat
  | .w32 => 32
  | .w64 => 64

/-- `n`, the number of bytes a load or store moves (R68, R240). -/
def Width.bytes : Width → Nat
  | .w32 => 4
  | .w64 => 8

/-- The four shift types (R130). -/
inductive ShiftType
  | lsl
  | lsr
  | asr
  | ror
  deriving DecidableEq, Repr

/-- The seven branch conditions (R131). -/
inductive Cond
  | eq
  | ne
  | ge
  | lt
  | gt
  | le
  | al
  deriving DecidableEq, Repr

/-- The instructions, one constructor per row of spec/opcode_table.json (R135). The operands carry the names of the
spec's fields; `sh` is `true` when the 12-bit immediate is shifted left by 12 (R108). -/
inductive Instr
  -- ImmArith, R108
  | addImm (sf : Width) (sh : Bool) (imm12 : BitVec 12) (rn rd : RegIdx)
  | addsImm (sf : Width) (sh : Bool) (imm12 : BitVec 12) (rn rd : RegIdx)
  | subImm (sf : Width) (sh : Bool) (imm12 : BitVec 12) (rn rd : RegIdx)
  | subsImm (sf : Width) (sh : Bool) (imm12 : BitVec 12) (rn rd : RegIdx)
  -- ImmWide, R109
  | movn (sf : Width) (hw : BitVec 2) (imm16 : BitVec 16) (rd : RegIdx)
  | movz (sf : Width) (hw : BitVec 2) (imm16 : BitVec 16) (rd : RegIdx)
  | movk (sf : Width) (hw : BitVec 2) (imm16 : BitVec 16) (rd : RegIdx)
  -- RegArith, R111
  | addReg (sf : Width) (shift : ShiftType) (rm : RegIdx) (operand : BitVec 6) (rn rd : RegIdx)
  | addsReg (sf : Width) (shift : ShiftType) (rm : RegIdx) (operand : BitVec 6) (rn rd : RegIdx)
  | subReg (sf : Width) (shift : ShiftType) (rm : RegIdx) (operand : BitVec 6) (rn rd : RegIdx)
  | subsReg (sf : Width) (shift : ShiftType) (rm : RegIdx) (operand : BitVec 6) (rn rd : RegIdx)
  -- RegLogic, R112
  | andReg (sf : Width) (shift : ShiftType) (rm : RegIdx) (operand : BitVec 6) (rn rd : RegIdx)
  | bicReg (sf : Width) (shift : ShiftType) (rm : RegIdx) (operand : BitVec 6) (rn rd : RegIdx)
  | orrReg (sf : Width) (shift : ShiftType) (rm : RegIdx) (operand : BitVec 6) (rn rd : RegIdx)
  | ornReg (sf : Width) (shift : ShiftType) (rm : RegIdx) (operand : BitVec 6) (rn rd : RegIdx)
  | eorReg (sf : Width) (shift : ShiftType) (rm : RegIdx) (operand : BitVec 6) (rn rd : RegIdx)
  | eonReg (sf : Width) (shift : ShiftType) (rm : RegIdx) (operand : BitVec 6) (rn rd : RegIdx)
  | andsReg (sf : Width) (shift : ShiftType) (rm : RegIdx) (operand : BitVec 6) (rn rd : RegIdx)
  | bicsReg (sf : Width) (shift : ShiftType) (rm : RegIdx) (operand : BitVec 6) (rn rd : RegIdx)
  -- RegMultiply, R113
  | madd (sf : Width) (rm ra rn rd : RegIdx)
  | msub (sf : Width) (rm ra rn rd : RegIdx)
  -- DTImmOffset, R116
  | ldrImm (sf : Width) (imm12 : BitVec 12) (xn rt : RegIdx)
  | strImm (sf : Width) (imm12 : BitVec 12) (xn rt : RegIdx)
  -- DTRegOffset, R117
  | ldrReg (sf : Width) (xm xn rt : RegIdx)
  | strReg (sf : Width) (xm xn rt : RegIdx)
  -- DTPrePostIndex, R118
  | ldrPre (sf : Width) (simm9 : BitVec 9) (xn rt : RegIdx)
  | strPre (sf : Width) (simm9 : BitVec 9) (xn rt : RegIdx)
  | ldrPost (sf : Width) (simm9 : BitVec 9) (xn rt : RegIdx)
  | strPost (sf : Width) (simm9 : BitVec 9) (xn rt : RegIdx)
  -- DTLoadLiteral, R115
  | ldrLit (sf : Width) (simm19 : BitVec 19) (rt : RegIdx)
  -- BranchUncond, R104
  | b (simm26 : BitVec 26)
  -- BranchCond, R105
  | bEq (simm19 : BitVec 19)
  | bNe (simm19 : BitVec 19)
  | bGe (simm19 : BitVec 19)
  | bLt (simm19 : BitVec 19)
  | bGt (simm19 : BitVec 19)
  | bLe (simm19 : BitVec 19)
  | bAl (simm19 : BitVec 19)
  -- BranchReg, R106
  | br (xn : RegIdx)
  -- the HALT sentinel, R141, R163
  | halt
  deriving DecidableEq, Repr

end Sys2Proof
end

