-- ==== Sys2Proof/WellFormed.lean ====
section
/-!
DEFINITION. Which instruction terms have an encoding of their own. The operand types fix every field's width, and no
field value is reserved inside a format (R144); the one term without a word of its own is the 64-bit `and x0, x0, x0`
with a zero shift, whose word is the HALT sentinel (R141).
-/

namespace Sys2Proof

/-- `and x0, x0, x0`, the term whose word is HALT and which is therefore never executed as AND (R141, R208). -/
def Instr.isHaltSpelling (i : Instr) : Bool :=
  i == .andReg .w64 .lsl 0#5 0#6 0#5 0#5

/-- An instruction that some word decodes to (R141, R144). -/
def Instr.wellFormed (i : Instr) : Bool :=
  !i.isHaltSpelling

end Sys2Proof
end

