-- ==== Sys2Proof/Decode.lean ====
section
/-!
DEFINITION. The decoder, total on any bytes and rejecting by name, and after it the encoder (30_encoding.md R100 to R144).
The bit positions of most fields are the spec's own supply from A64 (93_implementation_defined.md G1 to G5,
assumption 16, PRESUMED).
-/

namespace Sys2Proof

/-- Why the decoder rejects a word; the machine turns each of them into `DecodeError` (R140, R143, R301). -/
inductive DecodeReject
  /-- Fewer than four bytes were given (R100). -/
  | truncated
  /-- No group test of R102 holds. -/
  | noGroup
  /-- Branch group, `id = 10` (R103). -/
  | branchId
  /-- Branch group, a fixed bit of R104, R105 or R106 is wrong. -/
  | branchFixedBits
  /-- BranchCond with a `cond` outside the set of R131. -/
  | branchCondition
  /-- DP-immediate with an `opi` other than 010 and 101 (R107). -/
  | dpImmediateOpi
  /-- ImmWide with `opc = 01` (R109, R129). -/
  | immWideOpc
  /-- DP-register with no format for its selectors (R110). -/
  | dpRegisterSelector
  /-- DT group, a fixed bit of R115 to R118 is wrong. -/
  | transferFixedBits
  deriving DecidableEq, Repr

/-- `HALT_WORD` (R8, R163). -/
def haltWord : InstrWord := 0x8A000000#32

/-! ### Field values (R130 to R132) -/

/-- The field `w[lo + len - 1 : lo]` (R9). -/
def bitField {n : Nat} (w : BitVec n) (lo len : Nat) : BitVec len :=
  w.extractLsb' lo len

/-- The width a one-bit `sf` field chooses (R132). -/
def widthOfBit (v : BitVec 1) : Width :=
  if v = 1#1 then .w64 else .w32

/-- The `sf` bit of a width (R132). -/
def widthBit : Width → BitVec 1
  | .w32 => 0#1
  | .w64 => 1#1

/-- The shift type of a two-bit `shift` field (R130). -/
def shiftOfBits (v : BitVec 2) : ShiftType :=
  if v = 0b00#2 then .lsl else if v = 0b01#2 then .lsr else if v = 0b10#2 then .asr else .ror

/-- The `shift` field of a shift type (R130). -/
def shiftBits : ShiftType → BitVec 2
  | .lsl => 0b00#2
  | .lsr => 0b01#2
  | .asr => 0b10#2
  | .ror => 0b11#2

/-- The `sh` bit of an immediate (R108, R132). -/
def shBit (sh : Bool) : BitVec 1 :=
  if sh then 1#1 else 0#1

/-! ### The decoder -/

/-- The Branch group (R103 to R106, R131). -/
def decodeBranch (w : InstrWord) : Except DecodeReject Instr :=
  let id := bitField w 30 2
  if id = 0b00#2 then
    if bitField w 26 6 = 0b000101#6 then .ok (.b (bitField w 0 26)) else .error .branchFixedBits
  else if id = 0b01#2 then
    if bitField w 24 8 = 0b01010100#8 ∧ bitField w 4 1 = 0#1 then
      let simm19 := bitField w 5 19
      let cond := bitField w 0 4
      if cond = 0b0000#4 then .ok (.bEq simm19)
      else if cond = 0b0001#4 then .ok (.bNe simm19)
      else if cond = 0b1010#4 then .ok (.bGe simm19)
      else if cond = 0b1011#4 then .ok (.bLt simm19)
      else if cond = 0b1100#4 then .ok (.bGt simm19)
      else if cond = 0b1101#4 then .ok (.bLe simm19)
      else if cond = 0b1110#4 then .ok (.bAl simm19)
      else .error .branchCondition
    else .error .branchFixedBits
  else if id = 0b11#2 then
    if bitField w 10 22 = 0b1101011000011111000000#22 ∧ bitField w 0 5 = 0b00000#5 then .ok (.br (bitField w 5 5))
    else .error .branchFixedBits
  else .error .branchId

/-- ImmArith (R108, R127). -/
def decodeImmArith (w : InstrWord) : Instr :=
  let sf := widthOfBit (bitField w 31 1)
  let sh := bitField w 22 1 == 1#1
  let imm12 := bitField w 10 12
  let rn := bitField w 5 5
  let rd := bitField w 0 5
  let op := bitField w 29 2
  if op = 0b00#2 then .addImm sf sh imm12 rn rd
  else if op = 0b01#2 then .addsImm sf sh imm12 rn rd
  else if op = 0b10#2 then .subImm sf sh imm12 rn rd
  else .subsImm sf sh imm12 rn rd

/-- ImmWide (R109, R129). -/
def decodeImmWide (w : InstrWord) : Except DecodeReject Instr :=
  let sf := widthOfBit (bitField w 31 1)
  let hw := bitField w 21 2
  let imm16 := bitField w 5 16
  let rd := bitField w 0 5
  let opc := bitField w 29 2
  if opc = 0b00#2 then .ok (.movn sf hw imm16 rd)
  else if opc = 0b10#2 then .ok (.movz sf hw imm16 rd)
  else if opc = 0b11#2 then .ok (.movk sf hw imm16 rd)
  else .error .immWideOpc

/-- The DP-immediate group (R107). -/
def decodeDpImmediate (w : InstrWord) : Except DecodeReject Instr :=
  let opi := bitField w 23 3
  if opi = 0b010#3 then .ok (decodeImmArith w)
  else if opi = 0b101#3 then decodeImmWide w
  else .error .dpImmediateOpi

/-- RegArith (R111, R127). -/
def decodeRegArith (w : InstrWord) : Instr :=
  let sf := widthOfBit (bitField w 31 1)
  let shift := shiftOfBits (bitField w 22 2)
  let rm := bitField w 16 5
  let operand := bitField w 10 6
  let rn := bitField w 5 5
  let rd := bitField w 0 5
  let op := bitField w 29 2
  if op = 0b00#2 then .addReg sf shift rm operand rn rd
  else if op = 0b01#2 then .addsReg sf shift rm operand rn rd
  else if op = 0b10#2 then .subReg sf shift rm operand rn rd
  else .subsReg sf shift rm operand rn rd

/-- RegLogic (R112, R128). -/
def decodeRegLogic (w : InstrWord) : Instr :=
  let sf := widthOfBit (bitField w 31 1)
  let shift := shiftOfBits (bitField w 22 2)
  let rm := bitField w 16 5
  let operand := bitField w 10 6
  let rn := bitField w 5 5
  let rd := bitField w 0 5
  let opc := bitField w 29 2
  if bitField w 21 1 = 0#1 then
    if opc = 0b00#2 then .andReg sf shift rm operand rn rd
    else if opc = 0b01#2 then .orrReg sf shift rm operand rn rd
    else if opc = 0b10#2 then .eorReg sf shift rm operand rn rd
    else .andsReg sf shift rm operand rn rd
  else
    if opc = 0b00#2 then .bicReg sf shift rm operand rn rd
    else if opc = 0b01#2 then .ornReg sf shift rm operand rn rd
    else if opc = 0b10#2 then .eonReg sf shift rm operand rn rd
    else .bicsReg sf shift rm operand rn rd

/-- RegMultiply (R113). -/
def decodeRegMultiply (w : InstrWord) : Instr :=
  let sf := widthOfBit (bitField w 31 1)
  let rm := bitField w 16 5
  let ra := bitField w 10 5
  let rn := bitField w 5 5
  let rd := bitField w 0 5
  if bitField w 15 1 = 0#1 then .madd sf rm ra rn rd else .msub sf rm ra rn rd

/-- The DP-register group (R110). -/
def decodeDpRegister (w : InstrWord) : Except DecodeReject Instr :=
  if bitField w 28 1 = 0#1 then
    if bitField w 24 1 = 1#1 then
      if bitField w 21 1 = 0#1 then .ok (decodeRegArith w) else .error .dpRegisterSelector
    else .ok (decodeRegLogic w)
  else if bitField w 21 4 = 0b1000#4 ∧ bitField w 29 2 = 0b00#2 then .ok (decodeRegMultiply w)
  else .error .dpRegisterSelector

/-- DTPrePostIndex after its fixed bits (R118). -/
def decodePrePost (w : InstrWord) : Instr :=
  let sf := widthOfBit (bitField w 30 1)
  let simm9 := bitField w 12 9
  let xn := bitField w 5 5
  let rt := bitField w 0 5
  if bitField w 22 1 = 1#1 then
    if bitField w 11 1 = 1#1 then .ldrPre sf simm9 xn rt else .ldrPost sf simm9 xn rt
  else
    if bitField w 11 1 = 1#1 then .strPre sf simm9 xn rt else .strPost sf simm9 xn rt

/-- The DT group (R114 to R118). -/
def decodeTransfer (w : InstrWord) : Except DecodeReject Instr :=
  let sf := widthOfBit (bitField w 30 1)
  let load := bitField w 22 1
  let xn := bitField w 5 5
  let rt := bitField w 0 5
  if bitField w 31 1 = 0#1 then
    if bitField w 24 6 = 0b011000#6 then .ok (.ldrLit sf (bitField w 5 19) rt) else .error .transferFixedBits
  else if bitField w 25 5 = 0b11100#5 ∧ bitField w 23 1 = 0#1 then
    if bitField w 24 1 = 1#1 then
      if load = 1#1 then .ok (.ldrImm sf (bitField w 10 12) xn rt) else .ok (.strImm sf (bitField w 10 12) xn rt)
    else if bitField w 21 1 = 1#1 then
      if bitField w 10 6 = 0b011010#6 then
        if load = 1#1 then .ok (.ldrReg sf (bitField w 16 5) xn rt) else .ok (.strReg sf (bitField w 16 5) xn rt)
      else .error .transferFixedBits
    else if bitField w 10 1 = 1#1 then .ok (decodePrePost w)
    else .error .transferFixedBits
  else .error .transferFixedBits

/-- The instruction of a word: the HALT test, then the four groups of R102 (R136, R164). -/
def decodeWord (w : InstrWord) : Except DecodeReject Instr :=
  if w = haltWord then .ok .halt
  else if bitField w 26 3 = 0b101#3 then decodeBranch w
  else if bitField w 26 3 = 0b100#3 then decodeDpImmediate w
  else if bitField w 25 3 = 0b101#3 then decodeDpRegister w
  else if bitField w 27 1 = 1#1 ∧ bitField w 25 1 = 0#1 then decodeTransfer w
  else .error .noGroup

/-- The word whose byte `k` is the `k`-th argument (R63). -/
def wordOfBytes (b0 b1 b2 b3 : Byte) : InstrWord :=
  (b3 ++ b2 ++ b1 ++ b0 : BitVec 32)

/-- The first instruction of a list of bytes and the bytes after it; a decoder always consumes four bytes (R100). -/
def decodeBytes : List Byte → Except DecodeReject (Instr × List Byte)
  | b0 :: b1 :: b2 :: b3 :: rest =>
    match decodeWord (wordOfBytes b0 b1 b2 b3) with
    | .ok i => .ok (i, rest)
    | .error r => .error r
  | _ => .error .truncated

/-! ### The encoder -/

/-- ImmArith (R108). -/
def encodeImmArith (op : BitVec 2) (sf : Width) (sh : Bool) (imm12 : BitVec 12) (rn rd : RegIdx) : InstrWord :=
  (widthBit sf ++ op ++ 0b100010#6 ++ shBit sh ++ imm12 ++ rn ++ rd : BitVec 32)

/-- ImmWide (R109). -/
def encodeImmWide (opc : BitVec 2) (sf : Width) (hw : BitVec 2) (imm16 : BitVec 16) (rd : RegIdx) : InstrWord :=
  (widthBit sf ++ opc ++ 0b100101#6 ++ hw ++ imm16 ++ rd : BitVec 32)

/-- RegArith and RegLogic, which differ in bit 24 (R111, R112); `inv` is bit 21. -/
def encodeShifted (op : BitVec 2) (arith inv : BitVec 1) (sf : Width) (shift : ShiftType) (rm : RegIdx)
    (operand : BitVec 6) (rn rd : RegIdx) : InstrWord :=
  (widthBit sf ++ op ++ 0b0101#4 ++ arith ++ shiftBits shift ++ inv ++ rm ++ operand ++ rn ++ rd : BitVec 32)

/-- RegMultiply (R113). -/
def encodeMultiply (x : BitVec 1) (sf : Width) (rm ra rn rd : RegIdx) : InstrWord :=
  (widthBit sf ++ 0b0011011000#10 ++ rm ++ x ++ ra ++ rn ++ rd : BitVec 32)

/-- DTImmOffset (R116). -/
def encodeImmOffset (load : BitVec 1) (sf : Width) (imm12 : BitVec 12) (xn rt : RegIdx) : InstrWord :=
  (1#1 ++ widthBit sf ++ 0b1110010#7 ++ load ++ imm12 ++ xn ++ rt : BitVec 32)

/-- DTRegOffset (R117). -/
def encodeRegOffset (load : BitVec 1) (sf : Width) (xm xn rt : RegIdx) : InstrWord :=
  (1#1 ++ widthBit sf ++ 0b1110000#7 ++ load ++ 1#1 ++ xm ++ 0b011010#6 ++ xn ++ rt : BitVec 32)

/-- DTPrePostIndex (R118); `pre` is the bit `I`. -/
def encodePrePost (load pre : BitVec 1) (sf : Width) (simm9 : BitVec 9) (xn rt : RegIdx) : InstrWord :=
  (1#1 ++ widthBit sf ++ 0b1110000#7 ++ load ++ 0#1 ++ simm9 ++ pre ++ 1#1 ++ xn ++ rt : BitVec 32)

/-- DTLoadLiteral (R115). -/
def encodeLoadLiteral (sf : Width) (simm19 : BitVec 19) (rt : RegIdx) : InstrWord :=
  (0#1 ++ widthBit sf ++ 0b011000#6 ++ simm19 ++ rt : BitVec 32)

/-- BranchUncond (R104). -/
def encodeBranch (simm26 : BitVec 26) : InstrWord :=
  (0b000101#6 ++ simm26 : BitVec 32)

/-- BranchCond (R105, R131). -/
def encodeBranchCond (cond : BitVec 4) (simm19 : BitVec 19) : InstrWord :=
  (0b01010100#8 ++ simm19 ++ 0#1 ++ cond : BitVec 32)

/-- BranchReg (R106). -/
def encodeBranchReg (xn : RegIdx) : InstrWord :=
  (0b1101011000011111000000#22 ++ xn ++ 0b00000#5 : BitVec 32)

/-- The word of an instruction (R104 to R118, R127 to R132). The term that spells HALT shares HALT's word (R141). -/
def encode : Instr → InstrWord
  | .addImm sf sh imm12 rn rd => encodeImmArith 0b00#2 sf sh imm12 rn rd
  | .addsImm sf sh imm12 rn rd => encodeImmArith 0b01#2 sf sh imm12 rn rd
  | .subImm sf sh imm12 rn rd => encodeImmArith 0b10#2 sf sh imm12 rn rd
  | .subsImm sf sh imm12 rn rd => encodeImmArith 0b11#2 sf sh imm12 rn rd
  | .movn sf hw imm16 rd => encodeImmWide 0b00#2 sf hw imm16 rd
  | .movz sf hw imm16 rd => encodeImmWide 0b10#2 sf hw imm16 rd
  | .movk sf hw imm16 rd => encodeImmWide 0b11#2 sf hw imm16 rd
  | .addReg sf shift rm operand rn rd => encodeShifted 0b00#2 1#1 0#1 sf shift rm operand rn rd
  | .addsReg sf shift rm operand rn rd => encodeShifted 0b01#2 1#1 0#1 sf shift rm operand rn rd
  | .subReg sf shift rm operand rn rd => encodeShifted 0b10#2 1#1 0#1 sf shift rm operand rn rd
  | .subsReg sf shift rm operand rn rd => encodeShifted 0b11#2 1#1 0#1 sf shift rm operand rn rd
  | .andReg sf shift rm operand rn rd => encodeShifted 0b00#2 0#1 0#1 sf shift rm operand rn rd
  | .bicReg sf shift rm operand rn rd => encodeShifted 0b00#2 0#1 1#1 sf shift rm operand rn rd
  | .orrReg sf shift rm operand rn rd => encodeShifted 0b01#2 0#1 0#1 sf shift rm operand rn rd
  | .ornReg sf shift rm operand rn rd => encodeShifted 0b01#2 0#1 1#1 sf shift rm operand rn rd
  | .eorReg sf shift rm operand rn rd => encodeShifted 0b10#2 0#1 0#1 sf shift rm operand rn rd
  | .eonReg sf shift rm operand rn rd => encodeShifted 0b10#2 0#1 1#1 sf shift rm operand rn rd
  | .andsReg sf shift rm operand rn rd => encodeShifted 0b11#2 0#1 0#1 sf shift rm operand rn rd
  | .bicsReg sf shift rm operand rn rd => encodeShifted 0b11#2 0#1 1#1 sf shift rm operand rn rd
  | .madd sf rm ra rn rd => encodeMultiply 0#1 sf rm ra rn rd
  | .msub sf rm ra rn rd => encodeMultiply 1#1 sf rm ra rn rd
  | .ldrImm sf imm12 xn rt => encodeImmOffset 1#1 sf imm12 xn rt
  | .strImm sf imm12 xn rt => encodeImmOffset 0#1 sf imm12 xn rt
  | .ldrReg sf xm xn rt => encodeRegOffset 1#1 sf xm xn rt
  | .strReg sf xm xn rt => encodeRegOffset 0#1 sf xm xn rt
  | .ldrPre sf simm9 xn rt => encodePrePost 1#1 1#1 sf simm9 xn rt
  | .strPre sf simm9 xn rt => encodePrePost 0#1 1#1 sf simm9 xn rt
  | .ldrPost sf simm9 xn rt => encodePrePost 1#1 0#1 sf simm9 xn rt
  | .strPost sf simm9 xn rt => encodePrePost 0#1 0#1 sf simm9 xn rt
  | .ldrLit sf simm19 rt => encodeLoadLiteral sf simm19 rt
  | .b simm26 => encodeBranch simm26
  | .bEq simm19 => encodeBranchCond 0b0000#4 simm19
  | .bNe simm19 => encodeBranchCond 0b0001#4 simm19
  | .bGe simm19 => encodeBranchCond 0b1010#4 simm19
  | .bLt simm19 => encodeBranchCond 0b1011#4 simm19
  | .bGt simm19 => encodeBranchCond 0b1100#4 simm19
  | .bLe simm19 => encodeBranchCond 0b1101#4 simm19
  | .bAl simm19 => encodeBranchCond 0b1110#4 simm19
  | .br xn => encodeBranchReg xn
  | .halt => haltWord

/-- The four bytes of a word, least significant first (R63, R100). -/
def bytesOfWord (w : InstrWord) : List Byte :=
  [bitField w 0 8, bitField w 8 8, bitField w 16 8, bitField w 24 8]

/-- The bytes of an instruction as memory holds them (R100). -/
def encodeBytes (i : Instr) : List Byte :=
  bytesOfWord (encode i)

/-! ### The opcode table -/

/-- One row of spec/opcode_table.json: the words `w` with `w AND mask = value`. -/
structure OpcodeRow where
  value : InstrWord
  mask : InstrWord
  deriving DecidableEq, Repr

/-- The row of an instruction in spec/opcode_table.json ("match" and "mask"). -/
def opcodeRow : Instr → OpcodeRow
  | .addImm .. => ⟨0x11000000#32, 0x7F800000#32⟩
  | .addsImm .. => ⟨0x31000000#32, 0x7F800000#32⟩
  | .subImm .. => ⟨0x51000000#32, 0x7F800000#32⟩
  | .subsImm .. => ⟨0x71000000#32, 0x7F800000#32⟩
  | .movn .. => ⟨0x12800000#32, 0x7F800000#32⟩
  | .movz .. => ⟨0x52800000#32, 0x7F800000#32⟩
  | .movk .. => ⟨0x72800000#32, 0x7F800000#32⟩
  | .addReg .. => ⟨0x0B000000#32, 0x7F200000#32⟩
  | .addsReg .. => ⟨0x2B000000#32, 0x7F200000#32⟩
  | .subReg .. => ⟨0x4B000000#32, 0x7F200000#32⟩
  | .subsReg .. => ⟨0x6B000000#32, 0x7F200000#32⟩
  | .andReg .. => ⟨0x0A000000#32, 0x7F200000#32⟩
  | .bicReg .. => ⟨0x0A200000#32, 0x7F200000#32⟩
  | .orrReg .. => ⟨0x2A000000#32, 0x7F200000#32⟩
  | .ornReg .. => ⟨0x2A200000#32, 0x7F200000#32⟩
  | .eorReg .. => ⟨0x4A000000#32, 0x7F200000#32⟩
  | .eonReg .. => ⟨0x4A200000#32, 0x7F200000#32⟩
  | .andsReg .. => ⟨0x6A000000#32, 0x7F200000#32⟩
  | .bicsReg .. => ⟨0x6A200000#32, 0x7F200000#32⟩
  | .madd .. => ⟨0x1B000000#32, 0x7FE08000#32⟩
  | .msub .. => ⟨0x1B008000#32, 0x7FE08000#32⟩
  | .ldrImm .. => ⟨0xB9400000#32, 0xBFC00000#32⟩
  | .strImm .. => ⟨0xB9000000#32, 0xBFC00000#32⟩
  | .ldrReg .. => ⟨0xB8606800#32, 0xBFE0FC00#32⟩
  | .strReg .. => ⟨0xB8206800#32, 0xBFE0FC00#32⟩
  | .ldrPre .. => ⟨0xB8400C00#32, 0xBFE00C00#32⟩
  | .strPre .. => ⟨0xB8000C00#32, 0xBFE00C00#32⟩
  | .ldrPost .. => ⟨0xB8400400#32, 0xBFE00C00#32⟩
  | .strPost .. => ⟨0xB8000400#32, 0xBFE00C00#32⟩
  | .ldrLit .. => ⟨0x18000000#32, 0xBF000000#32⟩
  | .b .. => ⟨0x14000000#32, 0xFC000000#32⟩
  | .bEq .. => ⟨0x54000000#32, 0xFF00001F#32⟩
  | .bNe .. => ⟨0x54000001#32, 0xFF00001F#32⟩
  | .bGe .. => ⟨0x5400000A#32, 0xFF00001F#32⟩
  | .bLt .. => ⟨0x5400000B#32, 0xFF00001F#32⟩
  | .bGt .. => ⟨0x5400000C#32, 0xFF00001F#32⟩
  | .bLe .. => ⟨0x5400000D#32, 0xFF00001F#32⟩
  | .bAl .. => ⟨0x5400000E#32, 0xFF00001F#32⟩
  | .br .. => ⟨0xD61F0000#32, 0xFFFFFC1F#32⟩
  | .halt => ⟨0x8A000000#32, 0xFFFFFFFF#32⟩

/-- A word matches a row (R104 to R118, R140). -/
def OpcodeRow.matchesWord (r : OpcodeRow) (w : InstrWord) : Bool :=
  w &&& r.mask == r.value

/-- The decoder read on the host's numbering of spec/opcode_table.json: the instruction whose low `nbits` bits are those
of `w` and whose other bits are 0. Every instruction has 32 bits (R100), so a wider row has none. -/
def decodeTableWord (nbits w : Nat) : Option Instr :=
  if nbits ≤ 32 then
    match decodeBytes (bytesOfWord (BitVec.ofNat 32 (w % 2 ^ nbits))) with
    | .ok (i, _) => some i
    | .error _ => none
  else none

end Sys2Proof
end

