-- ==== Sys2Proof/Config.lean ====
section
/-!
DEFINITION. The parameters of the core (00_scope.md R8) and the spec's free values. A free value is an opaque constant:
nothing in Lean can evaluate it, so a proof holds for every value it may have (R15, `draw`).
-/

namespace Sys2Proof

/-- `MEM_SIZE`, the number of bytes of memory (R8, R60). -/
def Config.memSize : Nat := 2097152

/-- The two settings of `V_FLAG_MODE` (R8, R180, D12): the textbook signed overflow, or the value 0 of the C source. -/
inductive VFlagMode
  | textbook
  | source
  deriving DecidableEq, Repr, Inhabited

/-- The OPEN parameters of R8, which "the model takes as an argument" (92_eei_decisions.md). `exec` and `step` have a
fixed form, so the argument stands in State (assumption 1, DESIGN CHOICE); no step writes it. -/
structure Params where
  /-- `RESET_NZCV`: the flags after reset, N first (D6). -/
  resetNzcv : BitVec 4
  /-- `V_FLAG_MODE` (D12). -/
  vFlagMode : VFlagMode
  /-- `FETCH_ALIGN_FAULT` (D4). -/
  fetchAlignFault : Bool
  deriving DecidableEq, Repr, Inhabited

/-- What a pre-index store with `rt = xn` stores: a draw from these two (R247, D11). -/
inductive WbStoreChoice
  | oldBase
  | updatedAddress
  deriving DecidableEq, Repr, Inhabited

/-- What a post-index load with `rt = xn` leaves in the register: a draw from these three (R248, D11). -/
inductive WbLoadChoice
  | basePlusOffset
  | loadedValue
  | loadedPlusOffset
  deriving DecidableEq, Repr, Inhabited

/-- `SHIFT32_OVERSIZE`: the `k`-th draw as the result of a 32-bit LSL, LSR or ASR by 32 or more (R201, D9; assumption 7).
A free value: any 32-bit value. -/
opaque Config.shift32Oversize : Nat → BitVec 32

/-- `WB_OVERLAP`, pre-index store: the `k`-th draw (R247, D11; assumption 8). A free value. -/
opaque Config.wbStore : Nat → WbStoreChoice

/-- `WB_OVERLAP`, post-index load: the `k`-th draw (R248, D11; assumption 8). A free value. -/
opaque Config.wbLoad : Nat → WbLoadChoice

end Sys2Proof
end

