-- ==== Sys2Proof/Machine/Defaults.lean ====
section
/-!
DEFINITION. The default values of the OPEN parameters and the reset values (00_scope.md R8, 10_state.md R47).
-/

namespace Sys2Proof.Machine

/-- The settings the rules and the test vectors of the spec assume: `RESET_NZCV = 0b0000`, `V_FLAG_MODE = textbook`,
`FETCH_ALIGN_FAULT = false` (R8, D4, D6, D12; assumptions 2, 3, 4: DESIGN CHOICE, the spec leaves them OPEN). -/
def defaultParams : Params :=
  { resetNzcv := 0b0000#4, vFlagMode := .textbook, fetchAlignFault := false }

/-- `X0` to `X30` after reset (R47, R330, D5; assumption 5). -/
def resetRegs : Vector Word 31 :=
  Vector.replicate 31 0#64

/-- The reset vector (R47, R330, D8; assumption 5). -/
def resetPc : Word :=
  0#64

/-- The stack pointer after reset: the spec gives no value and calls it irrelevant (R35); DESIGN CHOICE (assumption 14). -/
def resetSp : Word :=
  0#64

/-- The draw counter after reset: the model's own field, DESIGN CHOICE (assumption 9). -/
def resetDraws : Nat :=
  0

end Sys2Proof.Machine
end

