-- ==== Sys2Proof/Machine/State.lean ====
section
/-!
DEFINITION. The state of the core as plain data (10_state.md R47), the reasons a step can stop, and the state after reset.
-/

namespace Sys2Proof.Machine

/-- The four condition flags (R39). -/
structure PState where
  n : Bool
  z : Bool
  c : Bool
  v : Bool
  deriving DecidableEq, Repr, Inhabited

/-- Memory as the list of its bytes that are not 0, at strictly rising addresses; an unlisted address of the space reads
as 0 (R44, R47, D7; assumption 6). -/
abbrev Memory := List Host.Cell

/-- The fatal errors of the core (R300 to R305). -/
inductive Fault
  /-- Code 1: the fetched word is not HALT and matches no format. Raised by `step` (R301). Safe: the spec's own error
  (under its strict decoding, D2 and D15, assumption 16). -/
  | decodeError (word : InstrWord) (pc : Word)
  /-- Code 2: an access of `n` bytes at `addr` with `addr + n > MEM_SIZE`, in the step at `pc`. Raised by the fetch, by every
  load and store, and by the host's memory accessors (R64, R302). Safe: the spec's own error. -/
  | boundsError (addr n : Nat) (pc : Word)
  /-- Code 2, the register variant: the host's register accessors given an index above 31; no instruction raises it
  (R33, R302). Safe: the spec's own error (assumption 25 says what becomes of the core). -/
  | registerBoundsError (i : Nat)
  /-- Code 3: a fetch at `pc mod 4 ≠ 0` when `FETCH_ALIGN_FAULT`. Raised by the fetch (R304). Safe: the spec's own error. -/
  | fetchAlignError (pc : Word)
  /-- Code 4: an image longer than the memory. Raised by the host's image load (R303). Safe: the spec's own error. -/
  | imageLoadError (len : Nat)
  deriving DecidableEq, Repr, Inhabited

/-- The reasons a step has no meaning. -/
inductive Refusal
  /-- An instruction without a meaning in the model. No arm of `exec` answers it. Safe: the model stops. -/
  | notModelled (mnemonic : String)
  /-- A step asked of a Halted or Faulted core, which takes no step (R45, R160; assumption 12). Raised by `step`. Safe: the
  spec gives such a core no step, and the model gives it none. -/
  | notRunning
  deriving DecidableEq, Repr

/-- The run status (R45). -/
inductive RunStatus
  | running
  | halted
  | faulted (e : Fault)
  deriving DecidableEq, Repr, Inhabited

/-- The whole state: what R47 lists, and the two fields `params` and `draws` of the model's own. -/
structure State where
  /-- `X0` to `X30` (R30). -/
  regs : Vector Word 31
  /-- The program counter (R36). -/
  pc : Word
  /-- The flags (R39). -/
  flags : PState
  /-- The memory (R44). -/
  mem : Memory
  /-- The run status (R45). -/
  status : RunStatus
  /-- The stack pointer, which no instruction reads or writes (R35; assumption 14). -/
  sp : Word
  /-- The model's own field: the settings of the OPEN parameters, which no step writes (R8; assumption 1). -/
  params : Params
  /-- The model's own field: the number of draws made so far, the argument of the free values (R15; assumption 9). -/
  draws : Nat
  deriving DecidableEq, Repr, Inhabited

/-- The flags named by a 4-bit value, N first (`RESET_NZCV`, R8, R330). -/
def PState.ofNzcv (v : BitVec 4) : PState :=
  { n := v.getLsbD 3, z := v.getLsbD 2, c := v.getLsbD 1, v := v.getLsbD 0 }

/-- The state after reset under given parameters, before any image is loaded (R47, R330). -/
def State.resetWith (p : Params) : State :=
  { regs := resetRegs, pc := resetPc, flags := PState.ofNzcv p.resetNzcv, mem := [], status := .running, sp := resetSp,
    params := p, draws := resetDraws }

/-- The state after reset with the default parameters (R47, R330). -/
def State.reset : State :=
  State.resetWith defaultParams

end Sys2Proof.Machine
end

