-- ==== Sys2Proof/Machine/Ops.lean ====
section
/-!
DEFINITION. The named operations over registers, memory, pc and run status, and the one way an error is raised
(00_scope.md R13 to R15, 20_memory.md, 60_exceptions.md).
-/

namespace Sys2Proof.Machine

/-! ### Registers -/

/-- `x[i]`: the 64-bit read of register `i`; index 31 is the zero register and reads 0 (R13, R31). -/
def State.x (s : State) (i : RegIdx) : Word :=
  if h : i.toNat < 31 then s.regs[i.toNat] else 0#64

/-- `x[i] <- v`; a write to index 31 is discarded (R13, R31). -/
def State.setX (s : State) (i : RegIdx) (v : Word) : State :=
  if h : i.toNat < 31 then { s with regs := s.regs.set i.toNat v } else s

/-- `readW(i)`: the register at the width `sf` chooses (R13, R32). -/
def State.readW (s : State) (sf : Width) (i : RegIdx) : BitVec sf.bits :=
  (s.x i).setWidth sf.bits

/-- `writeW(i, v)`: a 32-bit write clears the upper half (R13, R32). -/
def State.writeW (s : State) (sf : Width) (i : RegIdx) (v : BitVec sf.bits) : State :=
  s.setX i (v.setWidth 64)

/-! ### Flags, program counter, memory, status, draws -/

/-- PState replaced whole (R40). -/
def State.setFlags (s : State) (f : PState) : State :=
  { s with flags := f }

/-- `pc <- target` (R15, R37). -/
def State.setPc (s : State) (target : Word) : State :=
  { s with pc := target }

/-- The pc advance of an instruction that is no branch, modulo 2^64 (R37, R166). -/
def State.advance (s : State) : State :=
  s.setPc (s.pc + 4#64)

/-- The memory replaced whole. -/
def State.setMem (s : State) (m : Memory) : State :=
  { s with mem := m }

/-- The run status changed (R45). -/
def State.setStatus (s : State) (r : RunStatus) : State :=
  { s with status := r }

/-- One draw has been made (R15; assumption 9). -/
def State.countDraw (s : State) : State :=
  { s with draws := s.draws + 1 }

/-! ### Memory -/

/-- The byte at an address; an unlisted address reads 0 (R47, D7; assumption 6). -/
def Memory.read (m : Memory) (a : Nat) : Byte :=
  match m with
  | [] => 0#8
  | (k, v) :: rest => if k = a then v else Memory.read rest a

/-- An entry put in its place in a list without that address. -/
def Memory.insert (m : Memory) (a : Nat) (v : Byte) : Memory :=
  match m with
  | [] => [(a, v)]
  | (k, u) :: rest => if a < k then (a, v) :: (k, u) :: rest else (k, u) :: Memory.insert rest a v

/-- The entries of the other addresses. -/
def Memory.erase (m : Memory) (a : Nat) : Memory :=
  m.filter fun cell => cell.1 != a

/-- One byte stored; a zero byte, which is what an unlisted address reads as, leaves no entry. -/
def Memory.write (m : Memory) (a : Nat) (v : Byte) : Memory :=
  if v = 0#8 then Memory.erase m a else Memory.insert (Memory.erase m a) a v

/-- The canonical form: addresses strictly rise and no listed byte is 0. -/
abbrev Memory.wf (m : Memory) : Prop :=
  m.Pairwise (fun p q => p.1 < q.1) ∧ ∀ cell ∈ m, cell.2 ≠ 0#8

/-- Every listed address exists (R60). -/
abbrev Memory.inSpace (m : Memory) : Prop :=
  ∀ cell ∈ m, cell.1 < Config.memSize

/-- An access of `n` bytes at `a` is in range, on unbounded integers (R64). -/
abbrev inBounds (a n : Nat) : Prop :=
  a + n ≤ Config.memSize

/-- `load32(a)`, little-endian (R61, R63). -/
def Memory.load32 (m : Memory) (a : Nat) : BitVec 32 :=
  wordOfBytes (Memory.read m a) (Memory.read m (a + 1)) (Memory.read m (a + 2)) (Memory.read m (a + 3))

/-- `load64(a)`, little-endian (R61, R63). -/
def Memory.load64 (m : Memory) (a : Nat) : BitVec 64 :=
  (Memory.load32 m (a + 4) ++ Memory.load32 m a : BitVec 64)

/-- `store32(a, v)`, little-endian (R61, R63). -/
def Memory.store32 (m : Memory) (a : Nat) (v : BitVec 32) : Memory :=
  let m := Memory.write m a (bitField v 0 8)
  let m := Memory.write m (a + 1) (bitField v 8 8)
  let m := Memory.write m (a + 2) (bitField v 16 8)
  Memory.write m (a + 3) (bitField v 24 8)

/-- `store64(a, v)`, little-endian (R61, R63). -/
def Memory.store64 (m : Memory) (a : Nat) (v : BitVec 64) : Memory :=
  let m := Memory.store32 m a (bitField v 0 32)
  Memory.store32 m (a + 4) (bitField v 32 32)

/-- `zext(MemRead(a, n))` for the access size of `sf` (R14, R240). -/
def Memory.loadWidth (m : Memory) (sf : Width) (a : Nat) : Word :=
  match sf with
  | .w32 => (Memory.load32 m a).setWidth 64
  | .w64 => Memory.load64 m a

/-- `MemWrite(a, n, v[8n-1:0])` for the access size of `sf` (R14, R240). -/
def Memory.storeWidth (m : Memory) (sf : Width) (a : Nat) (v : Word) : Memory :=
  match sf with
  | .w32 => Memory.store32 m a (v.setWidth 32)
  | .w64 => Memory.store64 m a v

/-- Bytes copied verbatim to rising addresses (R331). -/
def Memory.copy (m : Memory) (a : Nat) : List Byte → Memory
  | [] => m
  | byte :: rest => Memory.copy (Memory.write m a byte) (a + 1) rest

/-! ### Raising an error -/

/-- The cause codes of R305. -/
def Fault.code : Fault → Nat
  | .decodeError .. => 1
  | .boundsError .. => 2
  | .registerBoundsError .. => 2
  | .fetchAlignError .. => 3
  | .imageLoadError .. => 4

/-- `raise e`: the step stops with the fatal error `e`. Nothing is saved, no mode changes, no vector is taken, and the state
the step leaves is not observable (R15, R300, R306, D16; assumption 10). There is no return from it (R308). -/
def raise (e : Fault) : Host.Outcome State Fault Refusal :=
  .fault e

/-- The bounds check of an access of `sf`'s size by the instruction at `s.pc`, before any byte moves (R64, R302). -/
def checkBounds (s : State) (sf : Width) (addr : Word) : Except Fault Unit :=
  if inBounds addr.toNat sf.bytes then .ok () else .error (.boundsError addr.toNat sf.bytes s.pc)

/-- How a non-branch instruction ends: with its error, or with the pc advance (R166, R169). -/
def finish (r : Except Fault State) : Host.Outcome State Fault Refusal :=
  match r with
  | .ok s => .next s.advance
  | .error e => raise e

/-! ### Fetch -/

/-- The word at `pc`: the alignment check if the parameter asks for it, then the bounds check, then the read
(R62, R67, R161, R167). -/
def fetch (s : State) : Except Fault InstrWord :=
  if s.pc.toNat % 4 ≠ 0 ∧ s.params.fetchAlignFault = true then .error (.fetchAlignError s.pc)
  else if inBounds s.pc.toNat 4 then .ok (Memory.load32 s.mem s.pc.toNat)
  else .error (.boundsError s.pc.toNat 4 s.pc)

/-- Fetch and decode: what `step` is to run (R161 to R164). -/
def fetchDecode (s : State) : Except Fault Instr :=
  match fetch s with
  | .error e => .error e
  | .ok w =>
    match decodeWord w with
    | .ok i => .ok i
    | .error _ => .error (.decodeError w s.pc)

/-- The state with a word placed where the next fetch reads it, where such bytes exist. -/
def placeAtPc (s : State) (w : InstrWord) : State :=
  if inBounds s.pc.toNat 4 then s.setMem (Memory.store32 s.mem s.pc.toNat w) else s

end Sys2Proof.Machine
end

