-- ==== Sys2Proof/Machine/Flags.lean ====
section
/-!
DEFINITION. The flag computations: the one add/subtract helper (41_dp_immediate.md R180), the flags of ANDS and BICS
(42_dp_register.md R214, R215), and the conditions of B.cond (44_branch.md R271).
-/

namespace Sys2Proof.Machine

/-- `V` of an addition or subtraction by R180's test, or 0 under `V_FLAG_MODE = source` (D12; assumption 3). -/
def overflowFlag {n : Nat} (mode : VFlagMode) (sub : Bool) (a b result : BitVec n) : Bool :=
  match mode with
  | .source => false
  | .textbook => (if sub then a.msb != b.msb else a.msb == b.msb) && result.msb != a.msb

/-- `AddSub`: the result (R180). -/
def addSubResult {n : Nat} (sub : Bool) (a b : BitVec n) : BitVec n :=
  if sub then a - b else a + b

/-- `AddSub`: the flags (R180). `C` is the unsigned carry of an addition, and "no borrow" of a subtraction. -/
def addSubFlags {n : Nat} (mode : VFlagMode) (sub : Bool) (a b : BitVec n) : PState :=
  let result := addSubResult sub a b
  { n := result.msb
    z := result == 0#n
    c := if sub then decide (b.toNat ≤ a.toNat) else decide (2 ^ n ≤ a.toNat + b.toNat)
    v := overflowFlag mode sub a b result }

/-- The flags of ANDS and BICS: N and Z from the result, C and V cleared (R214, R215). -/
def logicFlags {n : Nat} (result : BitVec n) : PState :=
  { n := result.msb, z := result == 0#n, c := false, v := false }

/-- Condition evaluation against PState (R271). -/
def condHolds (cond : Cond) (f : PState) : Bool :=
  match cond with
  | .eq => f.z
  | .ne => !f.z
  | .ge => f.n == f.v
  | .lt => f.n != f.v
  | .gt => !f.z && f.n == f.v
  | .le => f.z || f.n != f.v
  | .al => true

end Sys2Proof.Machine
end

