-- ==== Sys2Proof/Machine/Operands.lean ====
section
/-!
DEFINITION. Every operand form: immediates (30_encoding.md R120 to R126), the shifted register (42_dp_register.md R200 to
R202) and the addresses of the loads, stores and branches (43_load_store.md R241, 44_branch.md).
-/

namespace Sys2Proof.Machine

/-! ### Immediates -/

/-- `op2` of ImmArith: `imm12`, shifted left by 12 when `sh`, at width `W` (R120). -/
def immOperand (sf : Width) (sh : Bool) (imm12 : BitVec 12) : BitVec sf.bits :=
  imm12.setWidth sf.bits <<< (if sh then 12 else 0)

/-- `zext_16(imm16) << (hw · 16)` on 64 bits (R121). -/
def wideImm (hw : BitVec 2) (imm16 : BitVec 16) : Word :=
  imm16.setWidth 64 <<< (hw.toNat * 16)

/-- `0xFFFF << (hw · 16)`, the bits MOVK replaces (R187). -/
def wideMask (hw : BitVec 2) : Word :=
  0xFFFF#64 <<< (hw.toNat * 16)

/-- The final masking of the 32-bit wide moves: `zext_32(v[31:0])` (R185 to R188). -/
def maskWidth (sf : Width) (v : Word) : Word :=
  (v.setWidth sf.bits).setWidth 64

/-! ### The shifted register -/

/-- `Shift(v, type, n, W)` for an amount below `W`, and ROR for every amount (R200). -/
def shiftValue {w : Nat} (shift : ShiftType) (v : BitVec w) (n : Nat) : BitVec w :=
  match shift with
  | .lsl => v <<< n
  | .lsr => v >>> n
  | .asr => v.sshiftRight n
  | .ror =>
    let k := n % w
    if k = 0 then v else (v >>> k) ||| (v <<< (w - k))

/-- The amounts without a rule: a non-ROR shift by at least the width, which only the 32-bit forms can encode (R201). -/
def isOversize (sf : Width) (shift : ShiftType) (operand : BitVec 6) : Bool :=
  decide (sf.bits ≤ operand.toNat) && shift != .ror

/-- The shifted second operand of RegArith and RegLogic (R202); an oversize shift gives the free value of the current draw
(R201, D9; assumption 7). -/
def shiftedOperand (s : State) (sf : Width) (shift : ShiftType) (rm : RegIdx) (operand : BitVec 6) : BitVec sf.bits :=
  if isOversize sf shift operand then (Config.shift32Oversize s.draws).setWidth sf.bits
  else shiftValue shift (s.readW sf rm) operand.toNat

/-- The state after the second operand is formed: an oversize shift has made one draw (R201). -/
def afterShift (s : State) (sf : Width) (shift : ShiftType) (operand : BitVec 6) : State :=
  if isOversize sf shift operand then s.countDraw else s

/-- `op2` of RegLogic: the shifted operand, inverted when `N = 1` (R207). -/
def logicOperand (s : State) (sf : Width) (shift : ShiftType) (rm : RegIdx) (operand : BitVec 6) (inv : Bool) :
    BitVec sf.bits :=
  let op2 := shiftedOperand s sf shift rm operand
  if inv then ~~~op2 else op2

/-! ### Addresses -/

/-- `xn + imm12 · n` (R123, R241, R242). -/
def immOffsetAddr (s : State) (sf : Width) (imm12 : BitVec 12) (xn : RegIdx) : Word :=
  s.x xn + imm12.setWidth 64 * BitVec.ofNat 64 sf.bytes

/-- `xn + xm` (R241, R244). -/
def regOffsetAddr (s : State) (xm xn : RegIdx) : Word :=
  s.x xn + s.x xm

/-- `xn + sext_9(simm9)`, the pre-index address and the written-back base (R124, R241, R246). -/
def indexedAddr (s : State) (simm9 : BitVec 9) (xn : RegIdx) : Word :=
  s.x xn + simm9.signExtend 64

/-- `pc + sext_19(simm19) · 4`: the literal address and the B.cond target (R125, R250, R272). -/
def literalAddr (s : State) (simm19 : BitVec 19) : Word :=
  s.pc + simm19.signExtend 64 * 4#64

/-- `pc + sext_26(simm26) · 4`: the B target (R126, R270). -/
def branchAddr (s : State) (simm26 : BitVec 26) : Word :=
  s.pc + simm26.signExtend 64 * 4#64

end Sys2Proof.Machine
end

