-- ==== Sys2Proof/Machine/Branch.lean ====
section
/-!
DEFINITION. The meanings of the branches (44_branch.md) and of the HALT sentinel (40_cycle.md R163).
-/

namespace Sys2Proof.Machine

/-- A conditional branch: to the target if the condition holds, else past the instruction (R272). -/
def branchIf (cond : Cond) (simm19 : BitVec 19) (s : State) : State :=
  if condHolds cond s.flags then s.setPc (literalAddr s simm19) else s.advance

/-- B (R270). -/
def execB (simm26 : BitVec 26) (s : State) : Host.Outcome State Fault Refusal :=
  .next (s.setPc (branchAddr s simm26))

/-- B.EQ (R271, R272). -/
def execBEq (simm19 : BitVec 19) (s : State) : Host.Outcome State Fault Refusal :=
  .next (branchIf .eq simm19 s)

/-- B.NE (R271, R272). -/
def execBNe (simm19 : BitVec 19) (s : State) : Host.Outcome State Fault Refusal :=
  .next (branchIf .ne simm19 s)

/-- B.GE (R271, R272). -/
def execBGe (simm19 : BitVec 19) (s : State) : Host.Outcome State Fault Refusal :=
  .next (branchIf .ge simm19 s)

/-- B.LT (R271, R272). -/
def execBLt (simm19 : BitVec 19) (s : State) : Host.Outcome State Fault Refusal :=
  .next (branchIf .lt simm19 s)

/-- B.GT (R271, R272). -/
def execBGt (simm19 : BitVec 19) (s : State) : Host.Outcome State Fault Refusal :=
  .next (branchIf .gt simm19 s)

/-- B.LE (R271, R272). -/
def execBLe (simm19 : BitVec 19) (s : State) : Host.Outcome State Fault Refusal :=
  .next (branchIf .le simm19 s)

/-- B.AL (R271, R272). -/
def execBAl (simm19 : BitVec 19) (s : State) : Host.Outcome State Fault Refusal :=
  .next (branchIf .al simm19 s)

/-- BR: the full 64 bits of the register, with no alignment check (R273, R275). -/
def execBr (xn : RegIdx) (s : State) : Host.Outcome State Fault Refusal :=
  .next (s.setPc (s.x xn))

/-- HALT: the run status becomes Halted and nothing else changes; `pc` keeps the address of the word (R163). -/
def execHalt (s : State) : Host.Outcome State Fault Refusal :=
  .next (s.setStatus .halted)

end Sys2Proof.Machine
end

