-- ==== Sys2Proof/Machine/DpImmediate.lean ====
section
/-!
DEFINITION. The meanings of ImmArith and ImmWide (41_dp_immediate.md).
-/

namespace Sys2Proof.Machine

/-! ### ImmArith -/

/-- The result of an ImmArith instruction (R180 to R184). -/
def immArithResult (sub : Bool) (sf : Width) (sh : Bool) (imm12 : BitVec 12) (rn : RegIdx) (s : State) : BitVec sf.bits :=
  addSubResult sub (s.readW sf rn) (immOperand sf sh imm12)

/-- The flags of a flag-setting ImmArith instruction (R180, R182, R184). -/
def immArithFlags (sub : Bool) (sf : Width) (sh : Bool) (imm12 : BitVec 12) (rn : RegIdx) (s : State) : PState :=
  addSubFlags s.params.vFlagMode sub (s.readW sf rn) (immOperand sf sh imm12)

/-- ADD (immediate) (R181). -/
def execAddImm (sf : Width) (sh : Bool) (imm12 : BitVec 12) (rn rd : RegIdx) (s : State) : Host.Outcome State Fault Refusal :=
  .next (s.writeW sf rd (immArithResult false sf sh imm12 rn s)).advance

/-- ADDS (immediate) (R182). -/
def execAddsImm (sf : Width) (sh : Bool) (imm12 : BitVec 12) (rn rd : RegIdx) (s : State) : Host.Outcome State Fault Refusal :=
  .next ((s.setFlags (immArithFlags false sf sh imm12 rn s)).writeW sf rd (immArithResult false sf sh imm12 rn s)).advance

/-- SUB (immediate) (R183). -/
def execSubImm (sf : Width) (sh : Bool) (imm12 : BitVec 12) (rn rd : RegIdx) (s : State) : Host.Outcome State Fault Refusal :=
  .next (s.writeW sf rd (immArithResult true sf sh imm12 rn s)).advance

/-- SUBS (immediate) (R184). -/
def execSubsImm (sf : Width) (sh : Bool) (imm12 : BitVec 12) (rn rd : RegIdx) (s : State) : Host.Outcome State Fault Refusal :=
  .next ((s.setFlags (immArithFlags true sf sh imm12 rn s)).writeW sf rd (immArithResult true sf sh imm12 rn s)).advance

/-! ### ImmWide. The value is formed on 64 bits and masked last, also for the 32-bit forms with `hw` 2 or 3 (R188, D10). -/

/-- MOVN (R185). -/
def execMovn (sf : Width) (hw : BitVec 2) (imm16 : BitVec 16) (rd : RegIdx) (s : State) : Host.Outcome State Fault Refusal :=
  .next (s.setX rd (maskWidth sf (~~~wideImm hw imm16))).advance

/-- MOVZ (R186). -/
def execMovz (sf : Width) (hw : BitVec 2) (imm16 : BitVec 16) (rd : RegIdx) (s : State) : Host.Outcome State Fault Refusal :=
  .next (s.setX rd (maskWidth sf (wideImm hw imm16))).advance

/-- MOVK, which reads its own destination (R187). -/
def execMovk (sf : Width) (hw : BitVec 2) (imm16 : BitVec 16) (rd : RegIdx) (s : State) : Host.Outcome State Fault Refusal :=
  .next (s.setX rd (maskWidth sf ((s.x rd &&& ~~~wideMask hw) ||| wideImm hw imm16))).advance

end Sys2Proof.Machine
end

