-- ==== Sys2Proof/Machine/DpRegister.lean ====
section
/-!
DEFINITION. The meanings of RegArith, RegLogic and RegMultiply (42_dp_register.md).
-/

namespace Sys2Proof.Machine

/-! ### RegArith -/

/-- The result of a RegArith instruction (R180, R202 to R206). -/
def regArithResult (sub : Bool) (sf : Width) (shift : ShiftType) (rm : RegIdx) (operand : BitVec 6) (rn : RegIdx)
    (s : State) : BitVec sf.bits :=
  addSubResult sub (s.readW sf rn) (shiftedOperand s sf shift rm operand)

/-- The flags of a flag-setting RegArith instruction (R180, R204, R206). -/
def regArithFlags (sub : Bool) (sf : Width) (shift : ShiftType) (rm : RegIdx) (operand : BitVec 6) (rn : RegIdx)
    (s : State) : PState :=
  addSubFlags s.params.vFlagMode sub (s.readW sf rn) (shiftedOperand s sf shift rm operand)

/-- ADD (shifted register) (R203). -/
def execAddReg (sf : Width) (shift : ShiftType) (rm : RegIdx) (operand : BitVec 6) (rn rd : RegIdx) (s : State) :
    Host.Outcome State Fault Refusal :=
  let s1 := afterShift s sf shift operand
  .next (s1.writeW sf rd (regArithResult false sf shift rm operand rn s)).advance

/-- ADDS (shifted register) (R204). -/
def execAddsReg (sf : Width) (shift : ShiftType) (rm : RegIdx) (operand : BitVec 6) (rn rd : RegIdx) (s : State) :
    Host.Outcome State Fault Refusal :=
  let s1 := afterShift s sf shift operand
  let s2 := s1.setFlags (regArithFlags false sf shift rm operand rn s)
  .next (s2.writeW sf rd (regArithResult false sf shift rm operand rn s)).advance

/-- SUB (shifted register) (R205). -/
def execSubReg (sf : Width) (shift : ShiftType) (rm : RegIdx) (operand : BitVec 6) (rn rd : RegIdx) (s : State) :
    Host.Outcome State Fault Refusal :=
  let s1 := afterShift s sf shift operand
  .next (s1.writeW sf rd (regArithResult true sf shift rm operand rn s)).advance

/-- SUBS (shifted register) (R206). -/
def execSubsReg (sf : Width) (shift : ShiftType) (rm : RegIdx) (operand : BitVec 6) (rn rd : RegIdx) (s : State) :
    Host.Outcome State Fault Refusal :=
  let s1 := afterShift s sf shift operand
  let s2 := s1.setFlags (regArithFlags true sf shift rm operand rn s)
  .next (s2.writeW sf rd (regArithResult true sf shift rm operand rn s)).advance

/-! ### RegLogic -/

/-- AND (shifted register) (R207, R208). -/
def execAndReg (sf : Width) (shift : ShiftType) (rm : RegIdx) (operand : BitVec 6) (rn rd : RegIdx) (s : State) :
    Host.Outcome State Fault Refusal :=
  let result := s.readW sf rn &&& logicOperand s sf shift rm operand false
  let s1 := afterShift s sf shift operand
  .next (s1.writeW sf rd result).advance

/-- BIC (shifted register) (R207, R209). -/
def execBicReg (sf : Width) (shift : ShiftType) (rm : RegIdx) (operand : BitVec 6) (rn rd : RegIdx) (s : State) :
    Host.Outcome State Fault Refusal :=
  let result := s.readW sf rn &&& logicOperand s sf shift rm operand true
  let s1 := afterShift s sf shift operand
  .next (s1.writeW sf rd result).advance

/-- ORR (shifted register) (R207, R210). -/
def execOrrReg (sf : Width) (shift : ShiftType) (rm : RegIdx) (operand : BitVec 6) (rn rd : RegIdx) (s : State) :
    Host.Outcome State Fault Refusal :=
  let result := s.readW sf rn ||| logicOperand s sf shift rm operand false
  let s1 := afterShift s sf shift operand
  .next (s1.writeW sf rd result).advance

/-- ORN (shifted register) (R207, R211). -/
def execOrnReg (sf : Width) (shift : ShiftType) (rm : RegIdx) (operand : BitVec 6) (rn rd : RegIdx) (s : State) :
    Host.Outcome State Fault Refusal :=
  let result := s.readW sf rn ||| logicOperand s sf shift rm operand true
  let s1 := afterShift s sf shift operand
  .next (s1.writeW sf rd result).advance

/-- EOR (shifted register) (R207, R212). -/
def execEorReg (sf : Width) (shift : ShiftType) (rm : RegIdx) (operand : BitVec 6) (rn rd : RegIdx) (s : State) :
    Host.Outcome State Fault Refusal :=
  let result := s.readW sf rn ^^^ logicOperand s sf shift rm operand false
  let s1 := afterShift s sf shift operand
  .next (s1.writeW sf rd result).advance

/-- EON (shifted register) (R207, R213). -/
def execEonReg (sf : Width) (shift : ShiftType) (rm : RegIdx) (operand : BitVec 6) (rn rd : RegIdx) (s : State) :
    Host.Outcome State Fault Refusal :=
  let result := s.readW sf rn ^^^ logicOperand s sf shift rm operand true
  let s1 := afterShift s sf shift operand
  .next (s1.writeW sf rd result).advance

/-- ANDS (shifted register) (R207, R214). -/
def execAndsReg (sf : Width) (shift : ShiftType) (rm : RegIdx) (operand : BitVec 6) (rn rd : RegIdx) (s : State) :
    Host.Outcome State Fault Refusal :=
  let result := s.readW sf rn &&& logicOperand s sf shift rm operand false
  let s1 := afterShift s sf shift operand
  .next ((s1.setFlags (logicFlags result)).writeW sf rd result).advance

/-- BICS (shifted register) (R207, R215). -/
def execBicsReg (sf : Width) (shift : ShiftType) (rm : RegIdx) (operand : BitVec 6) (rn rd : RegIdx) (s : State) :
    Host.Outcome State Fault Refusal :=
  let result := s.readW sf rn &&& logicOperand s sf shift rm operand true
  let s1 := afterShift s sf shift operand
  .next ((s1.setFlags (logicFlags result)).writeW sf rd result).advance

/-! ### RegMultiply -/

/-- MADD; `ra = 31` reads 0, so MUL and MNEG need no case of their own (R216, R217, D13). -/
def execMadd (sf : Width) (rm ra rn rd : RegIdx) (s : State) : Host.Outcome State Fault Refusal :=
  .next (s.writeW sf rd (s.readW sf ra + s.readW sf rn * s.readW sf rm)).advance

/-- MSUB; `ra = 31` reads 0, so MUL and MNEG need no case of their own (R216, R218, D13). -/
def execMsub (sf : Width) (rm ra rn rd : RegIdx) (s : State) : Host.Outcome State Fault Refusal :=
  .next (s.writeW sf rd (s.readW sf ra - s.readW sf rn * s.readW sf rm)).advance

end Sys2Proof.Machine
end

