-- ==== Sys2Proof/Machine/LoadStore.lean ====
section
/-!
DEFINITION. The meanings of the loads and stores (43_load_store.md).
-/

namespace Sys2Proof.Machine

/-! ### One access -/

/-- The value a load of `sf`'s size reads at an address, after the bounds check (R64, R240). -/
def loadValue (s : State) (sf : Width) (addr : Word) : Except Fault Word :=
  match checkBounds s sf addr with
  | .ok _ => .ok (Memory.loadWidth s.mem sf addr.toNat)
  | .error e => .error e

/-- `x[rt] <- zext(MemRead(addr, n))`; a load into index 31 still makes the access (R240). -/
def loadInto (s : State) (sf : Width) (addr : Word) (rt : RegIdx) : Except Fault State :=
  match loadValue s sf addr with
  | .ok v => .ok (s.setX rt v)
  | .error e => .error e

/-- `MemWrite(addr, n, v[8n-1:0])`, after the bounds check (R64, R240). -/
def storeValue (s : State) (sf : Width) (addr : Word) (v : Word) : Except Fault State :=
  match checkBounds s sf addr with
  | .ok _ => .ok (s.setMem (Memory.storeWidth s.mem sf addr.toNat v))
  | .error e => .error e

/-! ### Write-back overlap -/

/-- The forms whose written-back base is also the transferred register (R247, R248). -/
def isOverlap (xn rt : RegIdx) : Bool :=
  rt == xn && rt != 31#5

/-- What STR (pre-index) stores: `x[rt]`, or on overlap the drawn one of the old base and the updated address (R247, D11;
assumption 8). -/
def preStoreValue (s : State) (addr : Word) (xn rt : RegIdx) : Word :=
  if isOverlap xn rt then
    match Config.wbStore s.draws with
    | .oldBase => s.x xn
    | .updatedAddress => addr
  else s.x rt

/-- The base that LDR (post-index) leaves on overlap: the drawn one of the written-back base, the loaded value, and the
loaded value plus the offset (R248, D11; assumption 8). -/
def postLoadOverlapValue (s : State) (simm9 : BitVec 9) (xn : RegIdx) (loaded : Word) : Word :=
  match Config.wbLoad s.draws with
  | .basePlusOffset => indexedAddr s simm9 xn
  | .loadedValue => loaded
  | .loadedPlusOffset => loaded + simm9.signExtend 64

/-- One draw on overlap (R247, R248). -/
def afterOverlap (s : State) (xn rt : RegIdx) : State :=
  if isOverlap xn rt then s.countDraw else s

/-! ### Unsigned offset -/

/-- LDR (unsigned offset) (R242). -/
def execLdrImm (sf : Width) (imm12 : BitVec 12) (xn rt : RegIdx) (s : State) : Host.Outcome State Fault Refusal :=
  finish (loadInto s sf (immOffsetAddr s sf imm12 xn) rt)

/-- STR (unsigned offset) (R243). -/
def execStrImm (sf : Width) (imm12 : BitVec 12) (xn rt : RegIdx) (s : State) : Host.Outcome State Fault Refusal :=
  finish (storeValue s sf (immOffsetAddr s sf imm12 xn) (s.x rt))

/-! ### Register offset -/

/-- LDR (register offset) (R244). -/
def execLdrReg (sf : Width) (xm xn rt : RegIdx) (s : State) : Host.Outcome State Fault Refusal :=
  finish (loadInto s sf (regOffsetAddr s xm xn) rt)

/-- STR (register offset) (R245). -/
def execStrReg (sf : Width) (xm xn rt : RegIdx) (s : State) : Host.Outcome State Fault Refusal :=
  finish (storeValue s sf (regOffsetAddr s xm xn) (s.x rt))

/-! ### Pre-index and post-index -/

/-- LDR (pre-index): the write-back first, then the load, whose register write is the later one (R246). -/
def execLdrPre (sf : Width) (simm9 : BitVec 9) (xn rt : RegIdx) (s : State) : Host.Outcome State Fault Refusal :=
  let addr := indexedAddr s simm9 xn
  finish (loadInto (s.setX xn addr) sf addr rt)

/-- STR (pre-index): the write-back first, then the store (R247). -/
def execStrPre (sf : Width) (simm9 : BitVec 9) (xn rt : RegIdx) (s : State) : Host.Outcome State Fault Refusal :=
  let addr := indexedAddr s simm9 xn
  finish (storeValue ((afterOverlap s xn rt).setX xn addr) sf addr (preStoreValue s addr xn rt))

/-- LDR (post-index): the load at the old base, then the write-back (R248). -/
def execLdrPost (sf : Width) (simm9 : BitVec 9) (xn rt : RegIdx) (s : State) : Host.Outcome State Fault Refusal :=
  match loadValue s sf (s.x xn) with
  | .ok v =>
    let s1 := afterOverlap s xn rt
    if isOverlap xn rt then finish (.ok (s1.setX xn (postLoadOverlapValue s simm9 xn v)))
    else finish (.ok ((s1.setX rt v).setX xn (indexedAddr s simm9 xn)))
  | .error e => raise e

/-- STR (post-index): the store at the old base, of `sf`'s size, then the write-back (R249, D14). -/
def execStrPost (sf : Width) (simm9 : BitVec 9) (xn rt : RegIdx) (s : State) : Host.Outcome State Fault Refusal :=
  match storeValue s sf (s.x xn) (s.x rt) with
  | .ok s1 => finish (.ok (s1.setX xn (indexedAddr s simm9 xn)))
  | .error e => raise e

/-! ### Literal -/

/-- LDR (literal) (R250). -/
def execLdrLit (sf : Width) (simm19 : BitVec 19) (rt : RegIdx) (s : State) : Host.Outcome State Fault Refusal :=
  finish (loadInto s sf (literalAddr s simm19) rt)

end Sys2Proof.Machine
end

