-- ==== Sys2Proof/Machine/Dispatch.lean ====
section
/-!
DEFINITION. The dispatch of a decoded instruction to its meaning, one arm per row of spec/opcode_table.json (R165).
-/

namespace Sys2Proof.Machine

def exec (i : Instr) (s : State) : Host.Outcome State Fault Refusal :=
  match i with
  | .addImm sf sh imm12 rn rd => Sys2Proof.Machine.execAddImm sf sh imm12 rn rd s
  | .addsImm sf sh imm12 rn rd => Sys2Proof.Machine.execAddsImm sf sh imm12 rn rd s
  | .subImm sf sh imm12 rn rd => Sys2Proof.Machine.execSubImm sf sh imm12 rn rd s
  | .subsImm sf sh imm12 rn rd => Sys2Proof.Machine.execSubsImm sf sh imm12 rn rd s
  | .movn sf hw imm16 rd => Sys2Proof.Machine.execMovn sf hw imm16 rd s
  | .movz sf hw imm16 rd => Sys2Proof.Machine.execMovz sf hw imm16 rd s
  | .movk sf hw imm16 rd => Sys2Proof.Machine.execMovk sf hw imm16 rd s
  | .addReg sf shift rm operand rn rd => Sys2Proof.Machine.execAddReg sf shift rm operand rn rd s
  | .addsReg sf shift rm operand rn rd => Sys2Proof.Machine.execAddsReg sf shift rm operand rn rd s
  | .subReg sf shift rm operand rn rd => Sys2Proof.Machine.execSubReg sf shift rm operand rn rd s
  | .subsReg sf shift rm operand rn rd => Sys2Proof.Machine.execSubsReg sf shift rm operand rn rd s
  | .andReg sf shift rm operand rn rd => Sys2Proof.Machine.execAndReg sf shift rm operand rn rd s
  | .bicReg sf shift rm operand rn rd => Sys2Proof.Machine.execBicReg sf shift rm operand rn rd s
  | .orrReg sf shift rm operand rn rd => Sys2Proof.Machine.execOrrReg sf shift rm operand rn rd s
  | .ornReg sf shift rm operand rn rd => Sys2Proof.Machine.execOrnReg sf shift rm operand rn rd s
  | .eorReg sf shift rm operand rn rd => Sys2Proof.Machine.execEorReg sf shift rm operand rn rd s
  | .eonReg sf shift rm operand rn rd => Sys2Proof.Machine.execEonReg sf shift rm operand rn rd s
  | .andsReg sf shift rm operand rn rd => Sys2Proof.Machine.execAndsReg sf shift rm operand rn rd s
  | .bicsReg sf shift rm operand rn rd => Sys2Proof.Machine.execBicsReg sf shift rm operand rn rd s
  | .madd sf rm ra rn rd => Sys2Proof.Machine.execMadd sf rm ra rn rd s
  | .msub sf rm ra rn rd => Sys2Proof.Machine.execMsub sf rm ra rn rd s
  | .ldrImm sf imm12 xn rt => Sys2Proof.Machine.execLdrImm sf imm12 xn rt s
  | .strImm sf imm12 xn rt => Sys2Proof.Machine.execStrImm sf imm12 xn rt s
  | .ldrReg sf xm xn rt => Sys2Proof.Machine.execLdrReg sf xm xn rt s
  | .strReg sf xm xn rt => Sys2Proof.Machine.execStrReg sf xm xn rt s
  | .ldrPre sf simm9 xn rt => Sys2Proof.Machine.execLdrPre sf simm9 xn rt s
  | .strPre sf simm9 xn rt => Sys2Proof.Machine.execStrPre sf simm9 xn rt s
  | .ldrPost sf simm9 xn rt => Sys2Proof.Machine.execLdrPost sf simm9 xn rt s
  | .strPost sf simm9 xn rt => Sys2Proof.Machine.execStrPost sf simm9 xn rt s
  | .ldrLit sf simm19 rt => Sys2Proof.Machine.execLdrLit sf simm19 rt s
  | .b simm26 => Sys2Proof.Machine.execB simm26 s
  | .bEq simm19 => Sys2Proof.Machine.execBEq simm19 s
  | .bNe simm19 => Sys2Proof.Machine.execBNe simm19 s
  | .bGe simm19 => Sys2Proof.Machine.execBGe simm19 s
  | .bLt simm19 => Sys2Proof.Machine.execBLt simm19 s
  | .bGt simm19 => Sys2Proof.Machine.execBGt simm19 s
  | .bLe simm19 => Sys2Proof.Machine.execBLe simm19 s
  | .bAl simm19 => Sys2Proof.Machine.execBAl simm19 s
  | .br xn => Sys2Proof.Machine.execBr xn s
  | .halt => Sys2Proof.Machine.execHalt s

end Sys2Proof.Machine
end

