-- ==== Sys2Proof/Machine/Step.lean ====
section
/-!
DEFINITION. One step of the core (40_cycle.md R167), and the placing of one instruction where the next step fetches it.
-/

namespace Sys2Proof.Machine

/-- One step (R167): only while Running (R160), fetch and decode or their error, then the instruction. The meanings of the
instructions hold the pc advance of R166. -/
def step (s : State) : Host.Outcome State Fault Refusal :=
  match s.status with
  | .running =>
    match fetchDecode s with
    | .ok i => exec i s
    | .error e => raise e
  | .halted => .refused .notRunning
  | .faulted _ => .refused .notRunning

/-- The state whose very next step fetches the instruction whose low `nbits` bits are those of `w`: the word stands at `pc`
and the core is Running (assumption 20). -/
def State.withFetchWord (s : State) (nbits w : Nat) : State :=
  placeAtPc (s.setStatus .running) (BitVec.ofNat 32 (w % 2 ^ nbits))

end Sys2Proof.Machine
end

