-- ==== Sys2Proof/Machine/HostInterface.lean ====
section
/-!
DEFINITION. What the host does between steps (70_reset_and_hazards.md R330, R331, R340 to R351): reset, image load, the
accessors, the single step with its report, the run, and the dump.
-/

namespace Sys2Proof

/-- The state after a fatal error, which no host can observe and no claim may depend on (R306, D16, U10; assumption 10). A
free value. -/
opaque Config.postFault : Machine.State → Machine.Fault → Machine.State

end Sys2Proof

namespace Sys2Proof.Machine

/-! ### How a host operation ends -/

/-- The core after `raise e` while Running: status `Faulted(e)`, and everything a program could have changed unknown
(R45, R306). -/
def faultedState (s : State) (e : Fault) : State :=
  { Config.postFault s e with status := .faulted e, params := s.params, draws := s.draws }

/-- The core after a host operation raised `e` on it. A Running core becomes `Faulted(e)`, as under any raise (R45, R306). A
core that is already Halted or Faulted is left as it is, since only a reset leaves these (R45; assumption 25). -/
def afterHostRaise (s : State) (e : Fault) : State :=
  match s.status with
  | .running => faultedState s e
  | .halted => s
  | .faulted _ => s

/-- How a host operation ends: with an answer and the core it leaves, or with an error and the core the error leaves. -/
inductive HostResult (α : Type)
  | done (answer : α) (core : State)
  | raised (e : Fault) (core : State)
  deriving DecidableEq, Repr

/-- `raise e` in a host operation (R302, R303, R341, R306; assumption 25). -/
def hostRaise {α : Type} (s : State) (e : Fault) : HostResult α :=
  .raised e (afterHostRaise s e)

/-! ### Reset and image load -/

/-- A new reset of the same core: its parameters stay (R330, R308), and the count of draws goes on, so that no draw is made
twice (assumption 9). -/
def hostReset (s : State) : State :=
  { State.resetWith s.params with draws := s.draws }

/-- `load_image(bytes)`: copied verbatim from address 0, or `ImageLoadError` (R331, R303). -/
def loadImage (s : State) (bytes : List Byte) : HostResult Unit :=
  if bytes.length ≤ Config.memSize then .done () (s.setMem (Memory.copy s.mem 0 bytes))
  else hostRaise s (.imageLoadError bytes.length)

/-- The start of a run: reset, then the image, then `pc = 0` (R330). After an `ImageLoadError` the core is Faulted and never
starts (R303). -/
def boot (p : Params) (bytes : List Byte) : HostResult Unit :=
  match loadImage (State.resetWith p) bytes with
  | .done _ s => .done () (s.setPc resetPc)
  | .raised e s => .raised e s

/-! ### Accessors (R341). A read leaves the core as it was. -/

/-- An access to the register the host numbers `i`: 31 is the zero register, more is the register BoundsError
(R33, R302, R341). -/
def withHostReg {α : Type} (s : State) (i : Nat) (access : RegIdx → HostResult α) : HostResult α :=
  if i ≤ 31 then access (BitVec.ofNat 5 i) else hostRaise s (.registerBoundsError i)

/-- An access of `n` bytes at the host's address `a` under the bounds rule (R64, R341). -/
def withHostBounds {α : Type} (s : State) (a : BitVec 32) (n : Nat) (access : HostResult α) : HostResult α :=
  if inBounds a.toNat n then access else hostRaise s (.boundsError a.toNat n s.pc)

/-- `read64(i)`. -/
def hostRead64 (s : State) (i : Nat) : HostResult Word :=
  withHostReg s i fun r => .done (s.x r) s

/-- `read32(i)`. -/
def hostRead32 (s : State) (i : Nat) : HostResult (BitVec 32) :=
  withHostReg s i fun r => .done ((s.x r).setWidth 32) s

/-- `write(i, v)`, ignored for index 31; a 32-bit writer has zero-extended `v` before (R32, R341). -/
def hostWrite (s : State) (i : Nat) (v : Word) : HostResult Unit :=
  withHostReg s i fun r => .done () (s.setX r v)

/-- The PC's `get`. -/
def hostGetPc (s : State) : Word :=
  s.pc

/-- The PC's `set`. -/
def hostSetPc (s : State) (v : Word) : State :=
  s.setPc v

/-- The PC's `inc4` (R37). -/
def hostIncPc4 (s : State) : State :=
  s.advance

/-- The PC's `add_offset`, modulo 2^64 (R37). -/
def hostAddPcOffset (s : State) (offset : Word) : State :=
  s.setPc (s.pc + offset)

/-- The four flags. -/
def hostFlags (s : State) : PState :=
  s.flags

/-- `load32(a)` with the bounds rule (R64). -/
def hostLoad32 (s : State) (a : BitVec 32) : HostResult (BitVec 32) :=
  withHostBounds s a 4 (.done (Memory.load32 s.mem a.toNat) s)

/-- `load64(a)` with the bounds rule (R64). -/
def hostLoad64 (s : State) (a : BitVec 32) : HostResult (BitVec 64) :=
  withHostBounds s a 8 (.done (Memory.load64 s.mem a.toNat) s)

/-- `store32(a, v)` with the bounds rule (R64). -/
def hostStore32 (s : State) (a : BitVec 32) (v : BitVec 32) : HostResult Unit :=
  withHostBounds s a 4 (.done () (s.setMem (Memory.store32 s.mem a.toNat v)))

/-- `store64(a, v)` with the bounds rule (R64). -/
def hostStore64 (s : State) (a : BitVec 32) (v : BitVec 64) : HostResult Unit :=
  withHostBounds s a 8 (.done () (s.setMem (Memory.store64 s.mem a.toNat v)))

/-! ### Single step and run -/

/-- `step_instruction()`: one step and the report of R342. A core that is not Running takes no step (R160). -/
def stepInstruction (s : State) : State × RunStatus :=
  match step s with
  | .next t => (t, t.status)
  | .fault e => (faultedState s e, .faulted e)
  | .refused _ => (s, s.status)

/-- At most `fuel` steps while the status is Running (R168, R343). The core has no step limit (D20); `fuel` only makes the
function total (assumption 22). -/
def hostRun : Nat → State → State
  | 0, s => s
  | fuel + 1, s =>
    match s.status with
    | .running => hostRun fuel (stepInstruction s).1
    | .halted => s
    | .faulted _ => s

/-! ### The dump (R350, R351) -/

/-- One lower-case hex digit. -/
def hexDigit (d : BitVec 4) : Char :=
  if d.toNat < 10 then Char.ofNat (48 + d.toNat) else Char.ofNat (87 + d.toNat)

/-- `n` hex digits, the most significant first. -/
def hexDigits {w : Nat} (v : BitVec w) : Nat → List Char
  | 0 => []
  | n + 1 => hexDigit (bitField v (4 * n) 4) :: hexDigits v n

/-- `%02d` of a register index. -/
def twoDigits (i : Nat) : List Char :=
  [Char.ofNat (48 + i / 10), Char.ofNat (48 + i % 10)]

/-- The line of one register. -/
def registerLine (s : State) (i : Nat) : List Char :=
  'X' :: twoDigits i ++ [' ', ' ', ' ', ' ', '=', ' '] ++ hexDigits (s.x (BitVec.ofNat 5 i)) 16 ++ ['\n']

/-- The PC line. -/
def pcLine (s : State) : List Char :=
  ['P', 'C', ' ', ' ', ' ', ' ', ' ', '=', ' '] ++ hexDigits s.pc 16 ++ ['\n']

/-- A flag's letter, or `-` when it is clear. -/
def flagChar (letter : Char) (set : Bool) : Char :=
  if set then letter else '-'

/-- The flags line. -/
def flagsLine (f : PState) : List Char :=
  ['P', 'S', 'T', 'A', 'T', 'E', ' ', ':', ' ', flagChar 'N' f.n, flagChar 'Z' f.z, flagChar 'C' f.c, flagChar 'V' f.v,
    '\n']

/-- The aligned addresses of the listed bytes, each once, in the order of the list. -/
def alignedAddrs : Memory → List Nat
  | [] => []
  | (a, _) :: rest =>
    match alignedAddrs rest with
    | [] => [a / 4 * 4]
    | b :: more => if b = a / 4 * 4 then b :: more else a / 4 * 4 :: b :: more

/-- The addresses the dump lists: those of the aligned words that are not 0 (R351). -/
def dumpAddrs (m : Memory) : List Nat :=
  (alignedAddrs m).filter fun a => Memory.load32 m a != 0#32

/-- The line of one memory word. -/
def memoryLine (m : Memory) (a : Nat) : List Char :=
  ['0', 'x'] ++ hexDigits (BitVec.ofNat 32 a) 8 ++ [':', ' '] ++ hexDigits (Memory.load32 m a) 8 ++ ['\n']

/-- The line that heads the registers. -/
def registersHeading : List Char :=
  ['R', 'e', 'g', 'i', 's', 't', 'e', 'r', 's', ':', '\n']

/-- The line that heads the memory. -/
def memoryHeading : List Char :=
  ['N', 'o', 'n', '-', 'Z', 'e', 'r', 'o', ' ', 'M', 'e', 'm', 'o', 'r', 'y', ':', '\n']

/-- The dump of a state, every line ended by a newline (R350, R351, D23; assumption 23). -/
def dump (s : State) : List Char :=
  registersHeading ++ (List.range 31).flatMap (registerLine s) ++ pcLine s ++ flagsLine s.flags ++ memoryHeading ++
    (dumpAddrs s.mem).flatMap (memoryLine s.mem)

/-- How a run of at most `fuel` steps ends (R343, R345). -/
inductive RunResult
  /-- A normal end: the dump of the Halted state. -/
  | dumped (text : List Char)
  /-- A fatal end: the error, and nothing else (R306). -/
  | failed (e : Fault)
  /-- No end within `fuel` steps. -/
  | unfinished
  deriving DecidableEq, Repr

/-- `emulate`: boot, steps while Running, and the dump of a Halted core (R343). -/
def emulate (fuel : Nat) (p : Params) (image : List Byte) : RunResult :=
  match boot p image with
  | .raised e _ => .failed e
  | .done _ s =>
    match (hostRun fuel s).status with
    | .halted => .dumped (dump (hostRun fuel s))
    | .faulted e => .failed e
    | .running => .unfinished

end Sys2Proof.Machine
end

