-- ==== Sys2Proof/Safety.lean ====
section
/-!
DEFINITION. The terms in which claims are stated: the rules of the spec transcribed on unbounded integers (R10 to R14), what a
step leaves alone, and the invariant of the machine.
-/

namespace Sys2Proof

/-! ### Kinds of instructions -/

/-- The writers of PState, and only these (R40). -/
def Instr.writesFlags : Instr → Bool
  | .addsImm .. | .subsImm .. | .addsReg .. | .subsReg .. | .andsReg .. | .bicsReg .. => true
  | _ => false

/-- The seven conditional branches (R272). -/
def Instr.isBranchCond : Instr → Bool
  | .bEq _ | .bNe _ | .bGe _ | .bLt _ | .bGt _ | .bLe _ | .bAl _ => true
  | _ => false

/-- The branch variants BranchUncond, BranchCond and BranchReg (R166). -/
def Instr.isBranch : Instr → Bool
  | .b _ | .br _ => true
  | i => i.isBranchCond

/-- The loads and stores (R240). -/
def Instr.isTransfer : Instr → Bool
  | .ldrImm .. | .strImm .. | .ldrReg .. | .strReg .. | .ldrPre .. | .strPre .. | .ldrPost .. | .strPost .. | .ldrLit .. =>
    true
  | _ => false

/-- The B.cond instruction of a condition (R105, R131). -/
def condInstr (c : Cond) (simm19 : BitVec 19) : Instr :=
  match c with
  | .eq => .bEq simm19
  | .ne => .bNe simm19
  | .ge => .bGe simm19
  | .lt => .bLt simm19
  | .gt => .bGt simm19
  | .le => .bLe simm19
  | .al => .bAl simm19

end Sys2Proof

namespace Sys2Proof.Machine

/-! ### The rules on unbounded integers -/

/-- What index `rd` reads after the value `v` was written to it (R13, R31). -/
def regResult (rd : RegIdx) (v : Nat) : Word :=
  if rd = 31#5 then 0#64 else BitVec.ofNat 64 v

/-- `op2` of ImmArith as a number (R120). -/
def immValue (sh : Bool) (imm12 : BitVec 12) : Nat :=
  imm12.toNat * (if sh then 4096 else 1)

/-- `(a + b) mod 2^W` (R180). -/
def refAdd (w a b : Nat) : Nat :=
  (a + b) % 2 ^ w

/-- `(a - b) mod 2^W`, the non-negative remainder (R10, R180). -/
def refSub (w a b : Nat) : Nat :=
  (((a : Int) - (b : Int)) % 2 ^ w).toNat

/-- The flags of an addition, read from R180 line by line. -/
def refAddFlags (mode : VFlagMode) (w a b : Nat) : PState :=
  let result := refAdd w a b
  { n := result.testBit (w - 1)
    z := decide (result = 0)
    c := decide (a + b ≥ 2 ^ w)
    v := decide (mode = .textbook) && (a.testBit (w - 1) == b.testBit (w - 1) &&
      result.testBit (w - 1) != a.testBit (w - 1)) }

/-- The flags of a subtraction, read from R180 line by line. -/
def refSubFlags (mode : VFlagMode) (w a b : Nat) : PState :=
  let result := refSub w a b
  { n := result.testBit (w - 1)
    z := decide (result = 0)
    c := decide (a ≥ b)
    v := decide (mode = .textbook) && (a.testBit (w - 1) != b.testBit (w - 1) &&
      result.testBit (w - 1) != a.testBit (w - 1)) }

/-- The flags of ANDS and BICS (R214). -/
def refLogicFlags (w result : Nat) : PState :=
  { n := result.testBit (w - 1), z := decide (result = 0), c := false, v := false }

/-- A signed value outside `-2^(W-1) .. 2^(W-1) - 1` (R180). -/
def outsideSigned (w : Nat) (v : Int) : Prop :=
  v < -(2 ^ (w - 1) : Int) ∨ (2 ^ (w - 1) : Int) ≤ v

/-- `imm16 << (hw·16)` as a number (R121). -/
def wideValue (hw : BitVec 2) (imm16 : BitVec 16) : Nat :=
  imm16.toNat * 2 ^ (16 * hw.toNat)

/-- A base and a signed offset added mod 2^64 (R241, R270). -/
def wrapSum (base : Nat) (offset : Int) : Nat :=
  (((base : Int) + offset) % 2 ^ 64).toNat

/-- The number whose byte `k` is the memory byte `a + k`, for `k < n` (R14). -/
def littleEndian (m : Memory) (a : Nat) : Nat → Nat
  | 0 => 0
  | n + 1 => (Memory.read m a).toNat + 256 * littleEndian m (a + 1) n

/-- Byte `k` of a value, `v[8k+7 : 8k]` (R14). -/
def byteOf (v : Word) (k : Nat) : Byte :=
  BitVec.ofNat 8 (v.toNat / 256 ^ k)

/-- When each condition holds, by the table of R271. -/
def condMeans (c : Cond) (f : PState) : Prop :=
  match c with
  | .eq => f.z = true
  | .ne => f.z = false
  | .ge => f.n = f.v
  | .lt => f.n ≠ f.v
  | .gt => f.z = false ∧ f.n = f.v
  | .le => f.z = true ∨ f.n ≠ f.v
  | .al => True

/-- The value a pre-index store stores when `rt = xn`, for each choice (R247). -/
def overlapStored (choice : WbStoreChoice) (old updated : Word) : Word :=
  match choice with
  | .oldBase => old
  | .updatedAddress => updated

/-- The value a post-index load leaves in `rt = xn`, for each choice (R248). -/
def overlapLoaded (choice : WbLoadChoice) (base : Nat) (offset : Int) (loaded : Nat) : Nat :=
  match choice with
  | .basePlusOffset => wrapSum base offset
  | .loadedValue => loaded
  | .loadedPlusOffset => wrapSum loaded offset

/-- `n` lower-case hex digits of a number, the most significant first: `%0nx` of a number below 16^n (R350). -/
def hexText (v n : Nat) : List Char :=
  (List.range n).map fun k => Nat.digitChar (v / 16 ^ (n - 1 - k) % 16)

/-! ### What a step leaves alone -/

/-- Every register but those named reads as before. -/
def KeepsRegsBut (ds : List RegIdx) (s t : State) : Prop :=
  ∀ j, j ∉ ds → t.x j = s.x j

/-- Every byte of memory reads as before. -/
def KeepsMem (s t : State) : Prop :=
  ∀ b, Memory.read t.mem b = Memory.read s.mem b

/-- Every byte of memory outside the `n` bytes at `a` reads as before. -/
def KeepsMemBut (a n : Nat) (s t : State) : Prop :=
  ∀ b, b < a ∨ a + n ≤ b → Memory.read t.mem b = Memory.read s.mem b

/-- The run status, the stack pointer and the parameters are as before. -/
def KeepsRest (s t : State) : Prop :=
  t.status = s.status ∧ t.sp = s.sp ∧ t.params = s.params

/-- Nothing but the named registers, the flags, the pc and the draw counter may differ. -/
def OnlyRegs (ds : List RegIdx) (s t : State) : Prop :=
  KeepsRegsBut ds s t ∧ KeepsMem s t ∧ KeepsRest s t

/-- The end of an instruction that is no branch and writes no flag. -/
def Advances (s t : State) : Prop :=
  t.pc = s.pc + 4#64 ∧ t.flags = s.flags

/-- The number of draws a shifted operand makes (R201). -/
def shiftDraws (sf : Width) (shift : ShiftType) (operand : BitVec 6) : Nat :=
  if sf = .w32 ∧ shift ≠ .ror ∧ 32 ≤ operand.toNat then 1 else 0

/-- What the error `e` of a host operation leaves: a Running core is Faulted(e), any other is as it was (R45;
assumption 25). -/
def AfterHostError (e : Fault) (s t : State) : Prop :=
  (s.status = .running → t.status = .faulted e) ∧ (s.status ≠ .running → t = s)

/-! ### Fetching, and the invariant -/

/-- A step of this state fetches a word without an error (R160, R161). -/
def Fetches (s : State) : Prop :=
  s.status = .running ∧ (s.params.fetchAlignFault = true → s.pc.toNat % 4 = 0) ∧ s.pc.toNat + 4 ≤ Config.memSize

/-- The memory is in its canonical form and lists only addresses that exist (R44, R60). -/
def State.Inv (s : State) : Prop :=
  Memory.wf s.mem ∧ Memory.inSpace s.mem

end Sys2Proof.Machine
end

