-- ==== Sys2Proof/Certificates/Slice0/Obligations.lean ====
section
/-!
DEFINITION. The statements for the provers, from the numbered rules of spec/. Those that rest on a decision of the spec or
on a convention of the model say so and name the log entry.
-/

section

open Sys2Proof Sys2Proof.Machine

/-- ADD (immediate), both widths, every immediate and register index: exec answers a next state in which rd holds
(readW(rn) + op2) mod 2^W, zero-extended (index 31 still reads 0), the flags are unchanged, pc has advanced by 4
modulo 2^64, and no other register, no byte of memory, no other field has changed. (R181.) -/
def Obligations.AddImmediateAddsAndKeepsFlags : Prop :=
  ∀ (sf : Width) (sh : Bool) (imm12 : BitVec 12) (rn rd : RegIdx) (s : State),
    ∃ t, exec (.addImm sf sh imm12 rn rd) s = .next t ∧
      t.x rd = regResult rd (refAdd sf.bits (s.readW sf rn).toNat (immValue sh imm12)) ∧
      Advances s t ∧ t.draws = s.draws ∧ OnlyRegs [rd] s t

/-- ADDS (immediate), both widths, every immediate and register index: exec answers a next state in which rd holds
(readW(rn) + op2) mod 2^W, zero-extended (index 31 still reads 0), N, Z, C, V are those of R180 (V under either
V_FLAG_MODE), also for rd = 31, pc has advanced by 4 modulo 2^64, and no other register, no byte of memory, no other
field has changed. (R182.) -/
def Obligations.AddsImmediateAddsAndSetsFlags : Prop :=
  ∀ (sf : Width) (sh : Bool) (imm12 : BitVec 12) (rn rd : RegIdx) (s : State),
    ∃ t, exec (.addsImm sf sh imm12 rn rd) s = .next t ∧
      t.x rd = regResult rd (refAdd sf.bits (s.readW sf rn).toNat (immValue sh imm12)) ∧
      t.flags = refAddFlags s.params.vFlagMode sf.bits (s.readW sf rn).toNat (immValue sh imm12) ∧ t.pc = s.pc + 4#64 ∧ t.draws = s.draws ∧ OnlyRegs [rd] s t

/-- SUB (immediate), both widths, every immediate and register index: exec answers a next state in which rd holds
(readW(rn) - op2) mod 2^W, zero-extended (index 31 still reads 0), the flags are unchanged, pc has advanced by 4
modulo 2^64, and no other register, no byte of memory, no other field has changed. (R183.) -/
def Obligations.SubImmediateSubtractsAndKeepsFlags : Prop :=
  ∀ (sf : Width) (sh : Bool) (imm12 : BitVec 12) (rn rd : RegIdx) (s : State),
    ∃ t, exec (.subImm sf sh imm12 rn rd) s = .next t ∧
      t.x rd = regResult rd (refSub sf.bits (s.readW sf rn).toNat (immValue sh imm12)) ∧
      Advances s t ∧ t.draws = s.draws ∧ OnlyRegs [rd] s t

/-- SUBS (immediate), both widths, every immediate and register index: exec answers a next state in which rd holds
(readW(rn) - op2) mod 2^W, zero-extended (index 31 still reads 0), N, Z, C, V are those of R180 (V under either
V_FLAG_MODE), also for rd = 31, pc has advanced by 4 modulo 2^64, and no other register, no byte of memory, no other
field has changed. (R184.) -/
def Obligations.SubsImmediateSubtractsAndSetsFlags : Prop :=
  ∀ (sf : Width) (sh : Bool) (imm12 : BitVec 12) (rn rd : RegIdx) (s : State),
    ∃ t, exec (.subsImm sf sh imm12 rn rd) s = .next t ∧
      t.x rd = regResult rd (refSub sf.bits (s.readW sf rn).toNat (immValue sh imm12)) ∧
      t.flags = refSubFlags s.params.vFlagMode sf.bits (s.readW sf rn).toNat (immValue sh imm12) ∧ t.pc = s.pc + 4#64 ∧ t.draws = s.draws ∧ OnlyRegs [rd] s t

/-- For each width W, every pair of W-bit operands and each V_FLAG_MODE: the result of the helper is (a + b) mod 2^W or (a
- b) mod 2^W computed on unbounded integers, and its flags are those R180 computes from a, b and the bits of the
result (the parameter is the spec's decision D12, log 3). (R180, 92_eei_decisions.md D12.) -/
def Obligations.AddSubHelperMatchesItsRule : Prop :=
  ∀ (sf : Width) (mode : VFlagMode) (a b : BitVec sf.bits),
    (addSubResult false a b).toNat = refAdd sf.bits a.toNat b.toNat ∧
    (addSubResult true a b).toNat = refSub sf.bits a.toNat b.toNat ∧
    addSubFlags mode false a b = refAddFlags mode sf.bits a.toNat b.toNat ∧
    addSubFlags mode true a b = refSubFlags mode sf.bits a.toNat b.toNat

/-- For each width W and every pair of W-bit operands: under the textbook setting, V of an addition or subtraction is 1
exactly when the signed sum or difference lies outside -2^(W-1) .. 2^(W-1) - 1 (an inference R180 marks as derived);
under the source setting V is 0 (the parameter of D12, log 3). (R180, 92_eei_decisions.md D12.) -/
def Obligations.TextbookOverflowIsSignedOverflow : Prop :=
  ∀ (sf : Width) (a b : BitVec sf.bits),
    ((addSubFlags .textbook false a b).v = true ↔ outsideSigned sf.bits (a.toInt + b.toInt)) ∧
    ((addSubFlags .textbook true a b).v = true ↔ outsideSigned sf.bits (a.toInt - b.toInt)) ∧
    (addSubFlags .source false a b).v = false ∧ (addSubFlags .source true a b).v = false

/-- MOVN, both widths, every hw, imm16 and rd: exec answers a next state in which rd holds the 64-bit complement of imm16
<< (hw·16), cut to the low W bits; the flags are unchanged, pc has advanced by 4, and nothing else has changed.
(R185.) -/
def Obligations.MovnWritesComplement : Prop :=
  ∀ (sf : Width) (hw : BitVec 2) (imm16 : BitVec 16) (rd : RegIdx) (s : State),
    ∃ t, exec (.movn sf hw imm16 rd) s = .next t ∧
      t.x rd = regResult rd ((2 ^ 64 - 1 - wideValue hw imm16) % 2 ^ sf.bits) ∧
      Advances s t ∧ t.draws = s.draws ∧ OnlyRegs [rd] s t

/-- MOVZ, both widths, every hw, imm16 and rd: exec answers a next state in which rd holds imm16 << (hw·16), cut to the
low W bits; the flags are unchanged, pc has advanced by 4, and nothing else has changed. (R186.) -/
def Obligations.MovzWritesShiftedImmediate : Prop :=
  ∀ (sf : Width) (hw : BitVec 2) (imm16 : BitVec 16) (rd : RegIdx) (s : State),
    ∃ t, exec (.movz sf hw imm16 rd) s = .next t ∧
      t.x rd = regResult rd (wideValue hw imm16 % 2 ^ sf.bits) ∧
      Advances s t ∧ t.draws = s.draws ∧ OnlyRegs [rd] s t

/-- MOVK, both widths, every hw, imm16 and rd: exec answers a next state in which bits hw·16 to hw·16+15 of rd are imm16,
every other bit below W is as it was, and the bits from W up are 0; the flags are unchanged, pc has advanced by 4, and
nothing else has changed. (R187.) -/
def Obligations.MovkReplacesOneHalfWord : Prop :=
  ∀ (sf : Width) (hw : BitVec 2) (imm16 : BitVec 16) (rd : RegIdx) (s : State),
    ∃ t, exec (.movk sf hw imm16 rd) s = .next t ∧
      (∀ k, (t.x rd).getLsbD k =
        (rd != 31#5 && decide (k < sf.bits) &&
          if 16 * hw.toNat ≤ k ∧ k < 16 * hw.toNat + 16 then imm16.getLsbD (k - 16 * hw.toNat)
          else (s.x rd).getLsbD k)) ∧
      Advances s t ∧ t.draws = s.draws ∧ OnlyRegs [rd] s t

/-- With sf = 0 and hw = 2 or 3, exec of MOVZ leaves 0 in rd, MOVN leaves 0x00000000FFFFFFFF and MOVK leaves the low 32
bits rd had, zero-extended (index 31 reads 0). This is the literal reading the spec decided on (D10). (R185, R186,
R187, R188, 92_eei_decisions.md D10.) -/
def Obligations.WideMovesOf32BitsIgnoreUpperHalfWords : Prop :=
  ∀ (hw : BitVec 2) (imm16 : BitVec 16) (rd : RegIdx) (s : State), 2 ≤ hw.toNat →
    (∃ t, exec (.movz .w32 hw imm16 rd) s = .next t ∧ t.x rd = 0#64) ∧
    (∃ t, exec (.movn .w32 hw imm16 rd) s = .next t ∧ t.x rd = regResult rd 0xFFFFFFFF) ∧
    (∃ t, exec (.movk .w32 hw imm16 rd) s = .next t ∧ t.x rd = regResult rd ((s.x rd).toNat % 2 ^ 32))

/-- For each width W and every W-bit v: for n < W, LSL gives (v·2^n) mod 2^W, LSR gives v / 2^n, ASR gives the signed v
divided by 2^n rounding toward minus infinity; for every n, ROR rotates right by n mod W, which is the identity for n
mod W = 0 (for n of W and more an inference R200 marks as derived). (R200.) -/
def Obligations.ShiftsMatchIntegerFormulas : Prop :=
  ∀ (sf : Width) (v : BitVec sf.bits) (n : Nat),
    (n < sf.bits →
      (shiftValue .lsl v n).toNat = v.toNat * 2 ^ n % 2 ^ sf.bits ∧
      (shiftValue .lsr v n).toNat = v.toNat / 2 ^ n ∧
      (shiftValue .asr v n).toInt = Int.fdiv v.toInt (2 ^ n)) ∧
    (shiftValue .ror v n).toNat =
      (v.toNat / 2 ^ (n % sf.bits) + v.toNat * 2 ^ (sf.bits - n % sf.bits)) % 2 ^ sf.bits

/-- The shifted operand is Shift(readW(rm), shift, operand, W) with no draw when W = 64, for ROR, or for an amount below
32; it is the free value of the current draw, and one draw is counted, for a 32-bit LSL, LSR or ASR by 32 to 63 (the
spec's decision D9, log 7); rm = 31 gives 0 except there. It holds for every value of the free value. (R201, R202,
92_eei_decisions.md D9, 93_implementation_defined.md U1.) -/
def Obligations.ShiftedOperandIsShiftOrFreeValue : Prop :=
  ∀ (s : State) (sf : Width) (shift : ShiftType) (rm : RegIdx) (operand : BitVec 6),
    (sf = .w64 ∨ shift = .ror ∨ operand.toNat < 32 →
      shiftedOperand s sf shift rm operand = shiftValue shift (s.readW sf rm) operand.toNat ∧
      (afterShift s sf shift operand).draws = s.draws ∧
      (rm = 31#5 → (shiftedOperand s sf shift rm operand).toNat = 0)) ∧
    (sf = .w32 ∧ shift ≠ .ror ∧ 32 ≤ operand.toNat →
      (shiftedOperand s sf shift rm operand).toNat = (Config.shift32Oversize s.draws).toNat ∧
      (afterShift s sf shift operand).draws = s.draws + 1)

/-- ADD (shifted register), both widths, all four shift types, every amount and register index: exec answers a next state
in which rd holds (readW(rn) + op2) mod 2^W, zero-extended (index 31 still reads 0), with op2 the shifted operand of
R202 (the free value where R201 draws one: the spec's decision D9, log 7, DESIGN CHOICE; it holds for every such
value), the flags are unchanged, pc has advanced by 4, and nothing else has changed but the count of draws, the
model's own field (log 9, DESIGN CHOICE). (R203, R202, R201, 92_eei_decisions.md D9.) -/
def Obligations.AddRegisterAddsAndKeepsFlags : Prop :=
  ∀ (sf : Width) (shift : ShiftType) (rm : RegIdx) (operand : BitVec 6) (rn rd : RegIdx) (s : State),
    ∃ t, exec (.addReg sf shift rm operand rn rd) s = .next t ∧
      t.x rd = regResult rd
        (refAdd sf.bits (s.readW sf rn).toNat (shiftedOperand s sf shift rm operand).toNat) ∧
      Advances s t ∧ t.draws = s.draws + shiftDraws sf shift operand ∧ OnlyRegs [rd] s t

/-- ADDS (shifted register), both widths, all four shift types, every amount and register index: exec answers a next state
in which rd holds (readW(rn) + op2) mod 2^W, zero-extended (index 31 still reads 0), with op2 the shifted operand of
R202 (the free value where R201 draws one: the spec's decision D9, log 7, DESIGN CHOICE; it holds for every such
value), N, Z, C, V are those of R180 on the same operands, also for rd = 31, pc has advanced by 4, and nothing else
has changed but the count of draws, the model's own field (log 9, DESIGN CHOICE). (R204, R202, R201,
92_eei_decisions.md D9.) -/
def Obligations.AddsRegisterAddsAndSetsFlags : Prop :=
  ∀ (sf : Width) (shift : ShiftType) (rm : RegIdx) (operand : BitVec 6) (rn rd : RegIdx) (s : State),
    ∃ t, exec (.addsReg sf shift rm operand rn rd) s = .next t ∧
      t.x rd = regResult rd
        (refAdd sf.bits (s.readW sf rn).toNat (shiftedOperand s sf shift rm operand).toNat) ∧
      t.flags = refAddFlags s.params.vFlagMode sf.bits (s.readW sf rn).toNat (shiftedOperand s sf shift rm operand).toNat ∧
      t.pc = s.pc + 4#64 ∧ t.draws = s.draws + shiftDraws sf shift operand ∧ OnlyRegs [rd] s t

/-- SUB (shifted register), both widths, all four shift types, every amount and register index: exec answers a next state
in which rd holds (readW(rn) - op2) mod 2^W, zero-extended (index 31 still reads 0), with op2 the shifted operand of
R202 (the free value where R201 draws one: the spec's decision D9, log 7, DESIGN CHOICE; it holds for every such
value), the flags are unchanged, pc has advanced by 4, and nothing else has changed but the count of draws, the
model's own field (log 9, DESIGN CHOICE). (R205, R202, R201, 92_eei_decisions.md D9.) -/
def Obligations.SubRegisterSubtractsAndKeepsFlags : Prop :=
  ∀ (sf : Width) (shift : ShiftType) (rm : RegIdx) (operand : BitVec 6) (rn rd : RegIdx) (s : State),
    ∃ t, exec (.subReg sf shift rm operand rn rd) s = .next t ∧
      t.x rd = regResult rd
        (refSub sf.bits (s.readW sf rn).toNat (shiftedOperand s sf shift rm operand).toNat) ∧
      Advances s t ∧ t.draws = s.draws + shiftDraws sf shift operand ∧ OnlyRegs [rd] s t

/-- SUBS (shifted register), both widths, all four shift types, every amount and register index: exec answers a next state
in which rd holds (readW(rn) - op2) mod 2^W, zero-extended (index 31 still reads 0), with op2 the shifted operand of
R202 (the free value where R201 draws one: the spec's decision D9, log 7, DESIGN CHOICE; it holds for every such
value), N, Z, C, V are those of R180 on the same operands, also for rd = 31, pc has advanced by 4, and nothing else
has changed but the count of draws, the model's own field (log 9, DESIGN CHOICE). (R206, R202, R201,
92_eei_decisions.md D9.) -/
def Obligations.SubsRegisterSubtractsAndSetsFlags : Prop :=
  ∀ (sf : Width) (shift : ShiftType) (rm : RegIdx) (operand : BitVec 6) (rn rd : RegIdx) (s : State),
    ∃ t, exec (.subsReg sf shift rm operand rn rd) s = .next t ∧
      t.x rd = regResult rd
        (refSub sf.bits (s.readW sf rn).toNat (shiftedOperand s sf shift rm operand).toNat) ∧
      t.flags = refSubFlags s.params.vFlagMode sf.bits (s.readW sf rn).toNat (shiftedOperand s sf shift rm operand).toNat ∧
      t.pc = s.pc + 4#64 ∧ t.draws = s.draws + shiftDraws sf shift operand ∧ OnlyRegs [rd] s t

/-- AND and BIC (shifted register), both widths, all shifts and register indices: exec answers a next state in which rd
holds readW(rn) AND op2 (for BIC the W-bit complement of op2), zero-extended (index 31 still reads 0), with op2 the
shifted operand of R202 (the free value where R201 draws one: the spec's decision D9, log 7, DESIGN CHOICE; it holds
for every such value); the flags are unchanged, pc has advanced by 4, and nothing else has changed but the count of
draws, the model's own field (log 9, DESIGN CHOICE). (It covers the 64-bit AND term of x0, x0, x0 with a zero shift
too, whose word is HALT: that exec of that term is an AND is the model's choice, log 11, DESIGN CHOICE; no step runs
it.) (R207, R208, R209, R202, R201, 92_eei_decisions.md D9, R141.) -/
def Obligations.AndBicCombineWithShiftedOperand : Prop :=
  ∀ (sf : Width) (shift : ShiftType) (rm : RegIdx) (operand : BitVec 6) (rn rd : RegIdx) (s : State),
    (∃ t, exec (.andReg sf shift rm operand rn rd) s = .next t ∧
      t.x rd = regResult rd ((s.readW sf rn).toNat &&& (shiftedOperand s sf shift rm operand).toNat) ∧
      Advances s t ∧ t.draws = s.draws + shiftDraws sf shift operand ∧ OnlyRegs [rd] s t) ∧
    (∃ t, exec (.bicReg sf shift rm operand rn rd) s = .next t ∧
      t.x rd = regResult rd ((s.readW sf rn).toNat &&& (2 ^ sf.bits - 1 - (shiftedOperand s sf shift rm operand).toNat)) ∧
      Advances s t ∧ t.draws = s.draws + shiftDraws sf shift operand ∧ OnlyRegs [rd] s t)

/-- ORR and ORN (shifted register), both widths, all shifts and register indices: exec answers a next state in which rd
holds readW(rn) OR op2 (for ORN the W-bit complement of op2), zero-extended (index 31 still reads 0), with op2 the
shifted operand of R202 (the free value where R201 draws one: the spec's decision D9, log 7, DESIGN CHOICE; it holds
for every such value); the flags are unchanged, pc has advanced by 4, and nothing else has changed but the count of
draws, the model's own field (log 9, DESIGN CHOICE). (R207, R210, R211, R202, R201, 92_eei_decisions.md D9.) -/
def Obligations.OrrOrnCombineWithShiftedOperand : Prop :=
  ∀ (sf : Width) (shift : ShiftType) (rm : RegIdx) (operand : BitVec 6) (rn rd : RegIdx) (s : State),
    (∃ t, exec (.orrReg sf shift rm operand rn rd) s = .next t ∧
      t.x rd = regResult rd ((s.readW sf rn).toNat ||| (shiftedOperand s sf shift rm operand).toNat) ∧
      Advances s t ∧ t.draws = s.draws + shiftDraws sf shift operand ∧ OnlyRegs [rd] s t) ∧
    (∃ t, exec (.ornReg sf shift rm operand rn rd) s = .next t ∧
      t.x rd = regResult rd ((s.readW sf rn).toNat ||| (2 ^ sf.bits - 1 - (shiftedOperand s sf shift rm operand).toNat)) ∧
      Advances s t ∧ t.draws = s.draws + shiftDraws sf shift operand ∧ OnlyRegs [rd] s t)

/-- EOR and EON (shifted register), both widths, all shifts and register indices: exec answers a next state in which rd
holds readW(rn) XOR op2 (for EON the W-bit complement of op2), zero-extended (index 31 still reads 0), with op2 the
shifted operand of R202 (the free value where R201 draws one: the spec's decision D9, log 7, DESIGN CHOICE; it holds
for every such value); the flags are unchanged, pc has advanced by 4, and nothing else has changed but the count of
draws, the model's own field (log 9, DESIGN CHOICE). (R207, R212, R213, R202, R201, 92_eei_decisions.md D9.) -/
def Obligations.EorEonCombineWithShiftedOperand : Prop :=
  ∀ (sf : Width) (shift : ShiftType) (rm : RegIdx) (operand : BitVec 6) (rn rd : RegIdx) (s : State),
    (∃ t, exec (.eorReg sf shift rm operand rn rd) s = .next t ∧
      t.x rd = regResult rd ((s.readW sf rn).toNat ^^^ (shiftedOperand s sf shift rm operand).toNat) ∧
      Advances s t ∧ t.draws = s.draws + shiftDraws sf shift operand ∧ OnlyRegs [rd] s t) ∧
    (∃ t, exec (.eonReg sf shift rm operand rn rd) s = .next t ∧
      t.x rd = regResult rd ((s.readW sf rn).toNat ^^^ (2 ^ sf.bits - 1 - (shiftedOperand s sf shift rm operand).toNat)) ∧
      Advances s t ∧ t.draws = s.draws + shiftDraws sf shift operand ∧ OnlyRegs [rd] s t)

/-- ANDS (shifted register), both widths, all shifts and register indices: exec answers a next state in which rd holds
readW(rn) AND op2, zero-extended (index 31 still reads 0), with op2 the shifted operand of R202 (the free value where
R201 draws one: the spec's decision D9, log 7, DESIGN CHOICE; it holds for every such value); N is the top bit of the
W-bit result, Z says it is 0, C and V are 0, also for rd = 31; pc has advanced by 4 and nothing else has changed but
the count of draws, the model's own field (log 9, DESIGN CHOICE). (R214, R207, R202, R201, 92_eei_decisions.md D9.) -/
def Obligations.AndsSetsLogicFlags : Prop :=
  ∀ (sf : Width) (shift : ShiftType) (rm : RegIdx) (operand : BitVec 6) (rn rd : RegIdx) (s : State),
    ∃ t, exec (.andsReg sf shift rm operand rn rd) s = .next t ∧
      t.x rd = regResult rd ((s.readW sf rn).toNat &&& (shiftedOperand s sf shift rm operand).toNat) ∧
      t.flags = refLogicFlags sf.bits ((s.readW sf rn).toNat &&& (shiftedOperand s sf shift rm operand).toNat) ∧
      t.pc = s.pc + 4#64 ∧ t.draws = s.draws + shiftDraws sf shift operand ∧ OnlyRegs [rd] s t

/-- BICS (shifted register), both widths, all shifts and register indices: exec answers a next state in which rd holds
readW(rn) AND the W-bit complement of op2, zero-extended (index 31 still reads 0), with op2 the shifted operand of
R202 (the free value where R201 draws one: the spec's decision D9, log 7, DESIGN CHOICE; it holds for every such
value); N is the top bit of the W-bit result, Z says it is 0, C and V are 0, also for rd = 31; pc has advanced by 4
and nothing else has changed but the count of draws, the model's own field (log 9, DESIGN CHOICE). (R215, R207, R202,
R201, 92_eei_decisions.md D9.) -/
def Obligations.BicsSetsLogicFlags : Prop :=
  ∀ (sf : Width) (shift : ShiftType) (rm : RegIdx) (operand : BitVec 6) (rn rd : RegIdx) (s : State),
    ∃ t, exec (.bicsReg sf shift rm operand rn rd) s = .next t ∧
      t.x rd = regResult rd ((s.readW sf rn).toNat &&& (2 ^ sf.bits - 1 - (shiftedOperand s sf shift rm operand).toNat)) ∧
      t.flags = refLogicFlags sf.bits ((s.readW sf rn).toNat &&& (2 ^ sf.bits - 1 - (shiftedOperand s sf shift rm operand).toNat)) ∧
      t.pc = s.pc + 4#64 ∧ t.draws = s.draws + shiftDraws sf shift operand ∧ OnlyRegs [rd] s t

/-- MADD, both widths and every register index: exec answers a next state in which rd holds readW(ra) +
readW(rn)·readW(rm) mod 2^W, zero-extended (index 31 reads 0 as ra, rn or rm and discards as rd); the flags are
unchanged, pc has advanced by 4, and nothing else has changed. (R217.) -/
def Obligations.MaddMultipliesAndAdds : Prop :=
  ∀ (sf : Width) (rm ra rn rd : RegIdx) (s : State),
    ∃ t, exec (.madd sf rm ra rn rd) s = .next t ∧
      t.x rd = regResult rd (((s.readW sf ra).toNat + (s.readW sf rn).toNat * (s.readW sf rm).toNat) % 2 ^ sf.bits) ∧
      Advances s t ∧ t.draws = s.draws ∧ OnlyRegs [rd] s t

/-- MSUB, both widths and every register index: exec answers a next state in which rd holds readW(ra) -
readW(rn)·readW(rm) mod 2^W, zero-extended (index 31 reads 0 as ra, rn or rm and discards as rd); the flags are
unchanged, pc has advanced by 4, and nothing else has changed. (R218.) -/
def Obligations.MsubMultipliesAndSubtracts : Prop :=
  ∀ (sf : Width) (rm ra rn rd : RegIdx) (s : State),
    ∃ t, exec (.msub sf rm ra rn rd) s = .next t ∧
      t.x rd = regResult rd (refSub sf.bits (s.readW sf ra).toNat ((s.readW sf rn).toNat * (s.readW sf rm).toNat)) ∧
      Advances s t ∧ t.draws = s.draws ∧ OnlyRegs [rd] s t

/-- For every state, 32-bit address, aligned or not, and value: when address + 8 is at most MEM_SIZE, a 64-bit load leaves
the state as it is, a 64-bit store succeeds, a 64-bit load then gives the value, and every byte outside the eight,
every register and every other field is as before; otherwise the store and the load raise BoundsError with the
address, 8 and the pc, and a Running core becomes Faulted with that error. The same for the 32-bit accessors with 4.
(That the check precedes every byte is the spec's decision D3, log 15; that the record holds the pc is the model's
choice, log 13, and so is that a core that was not Running stays as it was, log 25, both DESIGN CHOICE.) (R45, R63,
R64, R302, R306, R341, 92_eei_decisions.md D3.) -/
def Obligations.MemoryAccessorsCheckBounds : Prop :=
  ∀ (s : State) (a : BitVec 32) (v : BitVec 64) (u : BitVec 32),
    (a.toNat + 8 ≤ Config.memSize →
      (∃ w, hostLoad64 s a = .done w s) ∧
      ∃ t, hostStore64 s a v = .done () t ∧ hostLoad64 t a = .done v t ∧ KeepsMemBut a.toNat 8 s t ∧
        KeepsRegsBut [] s t ∧ t.pc = s.pc ∧ t.flags = s.flags ∧ t.draws = s.draws ∧ KeepsRest s t) ∧
    (Config.memSize < a.toNat + 8 →
      ∃ t, hostStore64 s a v = .raised (.boundsError a.toNat 8 s.pc) t ∧
        hostLoad64 s a = .raised (.boundsError a.toNat 8 s.pc) t ∧ AfterHostError (.boundsError a.toNat 8 s.pc) s t) ∧
    (a.toNat + 4 ≤ Config.memSize →
      (∃ w, hostLoad32 s a = .done w s) ∧
      ∃ t, hostStore32 s a u = .done () t ∧ hostLoad32 t a = .done u t ∧ KeepsMemBut a.toNat 4 s t ∧
        KeepsRegsBut [] s t ∧ t.pc = s.pc ∧ t.flags = s.flags ∧ t.draws = s.draws ∧ KeepsRest s t) ∧
    (Config.memSize < a.toNat + 4 →
      ∃ t, hostStore32 s a u = .raised (.boundsError a.toNat 4 s.pc) t ∧
        hostLoad32 s a = .raised (.boundsError a.toNat 4 s.pc) t ∧ AfterHostError (.boundsError a.toNat 4 s.pc) s t)

/-- LDR (unsigned offset), both sizes, every register index, any alignment: when the n bytes at x[xn] + imm12·n mod 2^64
are inside the memory, exec answers a next state in which rt holds them, least significant first, zero-extended (a
load into index 31 is discarded), the flags are unchanged, pc has advanced by 4, and nothing else has changed;
otherwise exec answers the fault BoundsError with that address, n and the pc. (R242.) -/
def Obligations.LoadUnsignedOffsetReadsLittleEndian : Prop :=
  ∀ (sf : Width) (imm12 : BitVec 12) (xn rt : RegIdx) (s : State),
    (immOffsetAddr s sf imm12 xn).toNat = ((s.x xn).toNat + imm12.toNat * sf.bytes) % 2 ^ 64 ∧
    ((immOffsetAddr s sf imm12 xn).toNat + sf.bytes ≤ Config.memSize →
      ∃ t, exec (.ldrImm sf imm12 xn rt) s = .next t ∧
        t.x rt = regResult rt (littleEndian s.mem (immOffsetAddr s sf imm12 xn).toNat sf.bytes) ∧
        Advances s t ∧ t.draws = s.draws ∧ OnlyRegs [rt] s t) ∧
    (Config.memSize < (immOffsetAddr s sf imm12 xn).toNat + sf.bytes →
      exec (.ldrImm sf imm12 xn rt) s = .fault (.boundsError (immOffsetAddr s sf imm12 xn).toNat sf.bytes s.pc))

/-- LDR (register offset), both sizes, every register index, any alignment: when the n bytes at x[xn] + x[xm] mod 2^64 are
inside the memory, exec answers a next state in which rt holds them, least significant first, zero-extended (a load
into index 31 is discarded), the flags are unchanged, pc has advanced by 4, and nothing else has changed; otherwise
exec answers the fault BoundsError with that address, n and the pc. (R244.) -/
def Obligations.LoadRegisterOffsetReadsLittleEndian : Prop :=
  ∀ (sf : Width) (xm xn rt : RegIdx) (s : State),
    (regOffsetAddr s xm xn).toNat = ((s.x xn).toNat + (s.x xm).toNat) % 2 ^ 64 ∧
    ((regOffsetAddr s xm xn).toNat + sf.bytes ≤ Config.memSize →
      ∃ t, exec (.ldrReg sf xm xn rt) s = .next t ∧
        t.x rt = regResult rt (littleEndian s.mem (regOffsetAddr s xm xn).toNat sf.bytes) ∧
        Advances s t ∧ t.draws = s.draws ∧ OnlyRegs [rt] s t) ∧
    (Config.memSize < (regOffsetAddr s xm xn).toNat + sf.bytes →
      exec (.ldrReg sf xm xn rt) s = .fault (.boundsError (regOffsetAddr s xm xn).toNat sf.bytes s.pc))

/-- LDR (literal), both sizes, every register index, any alignment: when the n bytes at pc + 4·simm19 mod 2^64 are inside
the memory, exec answers a next state in which rt holds them, least significant first, zero-extended (a load into
index 31 is discarded), the flags are unchanged, pc has advanced by 4, and nothing else has changed; otherwise exec
answers the fault BoundsError with that address, n and the pc. (R250.) -/
def Obligations.LoadLiteralReadsLittleEndian : Prop :=
  ∀ (sf : Width) (simm19 : BitVec 19) (rt : RegIdx) (s : State),
    (literalAddr s simm19).toNat = wrapSum s.pc.toNat (simm19.toInt * 4) ∧
    ((literalAddr s simm19).toNat + sf.bytes ≤ Config.memSize →
      ∃ t, exec (.ldrLit sf simm19 rt) s = .next t ∧
        t.x rt = regResult rt (littleEndian s.mem (literalAddr s simm19).toNat sf.bytes) ∧
        Advances s t ∧ t.draws = s.draws ∧ OnlyRegs [rt] s t) ∧
    (Config.memSize < (literalAddr s simm19).toNat + sf.bytes →
      exec (.ldrLit sf simm19 rt) s = .fault (.boundsError (literalAddr s simm19).toNat sf.bytes s.pc))

/-- LDR (pre-index), both sizes, every register index: when the n bytes at addr = x[xn] + simm9 mod 2^64 are inside the
memory, exec answers a next state in which rt holds them, zero-extended (also when rt = xn, where the load is the
later write, an inference R246 marks as derived; index 31 discards), xn holds addr when it is another register (index
31 discards), the flags are unchanged, pc has advanced by 4 and nothing else has changed; otherwise exec answers
BoundsError. (R246, R64.) -/
def Obligations.LoadPreIndexWritesBackFirst : Prop :=
  ∀ (sf : Width) (simm9 : BitVec 9) (xn rt : RegIdx) (s : State),
    (indexedAddr s simm9 xn).toNat = wrapSum (s.x xn).toNat simm9.toInt ∧
    ((indexedAddr s simm9 xn).toNat + sf.bytes ≤ Config.memSize →
      ∃ t, exec (.ldrPre sf simm9 xn rt) s = .next t ∧
        t.x rt = regResult rt (littleEndian s.mem (indexedAddr s simm9 xn).toNat sf.bytes) ∧
        (xn ≠ rt → t.x xn = regResult xn (indexedAddr s simm9 xn).toNat) ∧
        Advances s t ∧ t.draws = s.draws ∧ OnlyRegs [rt, xn] s t) ∧
    (Config.memSize < (indexedAddr s simm9 xn).toNat + sf.bytes →
      exec (.ldrPre sf simm9 xn rt) s = .fault (.boundsError (indexedAddr s simm9 xn).toNat sf.bytes s.pc))

/-- LDR (post-index), both sizes, every register index: when the n bytes at the old base are inside the memory, exec
answers a next state; for rt other than xn (or both 31) rt holds the loaded bytes and xn the base plus simm9 (index 31
discards) and no draw is made; for rt = xn below 31 the register holds the drawn one of base + simm9, the loaded value
and the loaded value + simm9, and one draw is counted (the spec's decision D11, log 8; it holds for every draw); the
flags are unchanged, pc has advanced by 4 and nothing else has changed; otherwise exec answers BoundsError. (R248,
92_eei_decisions.md D11, 93_implementation_defined.md U3.) -/
def Obligations.LoadPostIndexWritesBackAfter : Prop :=
  ∀ (sf : Width) (simm9 : BitVec 9) (xn rt : RegIdx) (s : State),
    ((s.x xn).toNat + sf.bytes ≤ Config.memSize →
      ∃ t, exec (.ldrPost sf simm9 xn rt) s = .next t ∧
        (if rt = xn ∧ rt ≠ 31#5 then
          t.x xn = BitVec.ofNat 64 (overlapLoaded (Config.wbLoad s.draws) (s.x xn).toNat simm9.toInt
            (littleEndian s.mem (s.x xn).toNat sf.bytes)) ∧ t.draws = s.draws + 1
        else
          t.x rt = regResult rt (littleEndian s.mem (s.x xn).toNat sf.bytes) ∧
          t.x xn = regResult xn (wrapSum (s.x xn).toNat simm9.toInt) ∧ t.draws = s.draws) ∧
        Advances s t ∧ OnlyRegs [rt, xn] s t) ∧
    (Config.memSize < (s.x xn).toNat + sf.bytes →
      exec (.ldrPost sf simm9 xn rt) s = .fault (.boundsError (s.x xn).toNat sf.bytes s.pc))

/-- STR (unsigned offset), both sizes, every register index, any alignment: when the n bytes at x[xn] + imm12·n mod 2^64
are inside the memory, exec answers a next state in which they are the low n bytes of x[rt], least significant first
(zero bytes for index 31), every other byte, every register and the flags are unchanged, and pc has advanced by 4;
otherwise exec answers the fault BoundsError with that address, n and the pc. (R243.) -/
def Obligations.StoreUnsignedOffsetWritesLittleEndian : Prop :=
  ∀ (sf : Width) (imm12 : BitVec 12) (xn rt : RegIdx) (s : State),
    (immOffsetAddr s sf imm12 xn).toNat = ((s.x xn).toNat + imm12.toNat * sf.bytes) % 2 ^ 64 ∧
    ((immOffsetAddr s sf imm12 xn).toNat + sf.bytes ≤ Config.memSize →
      ∃ t, exec (.strImm sf imm12 xn rt) s = .next t ∧
        (∀ k, k < sf.bytes → Memory.read t.mem ((immOffsetAddr s sf imm12 xn).toNat + k) = byteOf (s.x rt) k) ∧
        KeepsMemBut (immOffsetAddr s sf imm12 xn).toNat sf.bytes s t ∧ KeepsRegsBut [] s t ∧
        Advances s t ∧ t.draws = s.draws ∧ KeepsRest s t) ∧
    (Config.memSize < (immOffsetAddr s sf imm12 xn).toNat + sf.bytes →
      exec (.strImm sf imm12 xn rt) s = .fault (.boundsError (immOffsetAddr s sf imm12 xn).toNat sf.bytes s.pc))

/-- STR (register offset), both sizes, every register index, any alignment: when the n bytes at x[xn] + x[xm] mod 2^64 are
inside the memory, exec answers a next state in which they are the low n bytes of x[rt], least significant first (zero
bytes for index 31), every other byte, every register and the flags are unchanged, and pc has advanced by 4; otherwise
exec answers the fault BoundsError with that address, n and the pc. (R245.) -/
def Obligations.StoreRegisterOffsetWritesLittleEndian : Prop :=
  ∀ (sf : Width) (xm xn rt : RegIdx) (s : State),
    (regOffsetAddr s xm xn).toNat = ((s.x xn).toNat + (s.x xm).toNat) % 2 ^ 64 ∧
    ((regOffsetAddr s xm xn).toNat + sf.bytes ≤ Config.memSize →
      ∃ t, exec (.strReg sf xm xn rt) s = .next t ∧
        (∀ k, k < sf.bytes → Memory.read t.mem ((regOffsetAddr s xm xn).toNat + k) = byteOf (s.x rt) k) ∧
        KeepsMemBut (regOffsetAddr s xm xn).toNat sf.bytes s t ∧ KeepsRegsBut [] s t ∧
        Advances s t ∧ t.draws = s.draws ∧ KeepsRest s t) ∧
    (Config.memSize < (regOffsetAddr s xm xn).toNat + sf.bytes →
      exec (.strReg sf xm xn rt) s = .fault (.boundsError (regOffsetAddr s xm xn).toNat sf.bytes s.pc))

/-- STR (pre-index), both sizes, every register index: when the n bytes at addr = x[xn] + simm9 mod 2^64 are inside the
memory, exec answers a next state in which they are the low n bytes of x[rt], or, for rt = xn below 31, of the drawn
one of the old base and addr, one draw being counted (the spec's decision D11, log 8; it holds for every draw); xn
holds addr (index 31 discards), every other byte and register and the flags are unchanged and pc has advanced by 4;
otherwise exec answers BoundsError. (R247, 92_eei_decisions.md D11, 93_implementation_defined.md U2.) -/
def Obligations.StorePreIndexWritesBackFirst : Prop :=
  ∀ (sf : Width) (simm9 : BitVec 9) (xn rt : RegIdx) (s : State),
    (indexedAddr s simm9 xn).toNat = wrapSum (s.x xn).toNat simm9.toInt ∧
    ((indexedAddr s simm9 xn).toNat + sf.bytes ≤ Config.memSize →
      ∃ t, exec (.strPre sf simm9 xn rt) s = .next t ∧
        (∀ k, k < sf.bytes → Memory.read t.mem ((indexedAddr s simm9 xn).toNat + k) =
          byteOf (if rt = xn ∧ rt ≠ 31#5 then overlapStored (Config.wbStore s.draws) (s.x xn) (indexedAddr s simm9 xn)
            else s.x rt) k) ∧
        t.x xn = regResult xn (indexedAddr s simm9 xn).toNat ∧
        t.draws = s.draws + (if rt = xn ∧ rt ≠ 31#5 then 1 else 0) ∧
        KeepsMemBut (indexedAddr s simm9 xn).toNat sf.bytes s t ∧ KeepsRegsBut [xn] s t ∧
        Advances s t ∧ KeepsRest s t) ∧
    (Config.memSize < (indexedAddr s simm9 xn).toNat + sf.bytes →
      exec (.strPre sf simm9 xn rt) s = .fault (.boundsError (indexedAddr s simm9 xn).toNat sf.bytes s.pc))

/-- STR (post-index), both sizes, every register index: when the n bytes at the old base are inside the memory, exec
answers a next state in which they are the low n bytes of x[rt] (of the old base when rt = xn), xn holds the base plus
simm9 mod 2^64 (index 31 discards), every other byte and register and the flags are unchanged and pc has advanced by
4; otherwise exec answers BoundsError. (That the 32-bit form stores 4 bytes is the spec's decision D14, log 19.)
(R249, 92_eei_decisions.md D14.) -/
def Obligations.StorePostIndexWritesBackAfter : Prop :=
  ∀ (sf : Width) (simm9 : BitVec 9) (xn rt : RegIdx) (s : State),
    ((s.x xn).toNat + sf.bytes ≤ Config.memSize →
      ∃ t, exec (.strPost sf simm9 xn rt) s = .next t ∧
        (∀ k, k < sf.bytes → Memory.read t.mem ((s.x xn).toNat + k) = byteOf (s.x rt) k) ∧
        t.x xn = regResult xn (wrapSum (s.x xn).toNat simm9.toInt) ∧
        KeepsMemBut (s.x xn).toNat sf.bytes s t ∧ KeepsRegsBut [xn] s t ∧
        Advances s t ∧ t.draws = s.draws ∧ KeepsRest s t) ∧
    (Config.memSize < (s.x xn).toNat + sf.bytes →
      exec (.strPost sf simm9 xn rt) s = .fault (.boundsError (s.x xn).toNat sf.bytes s.pc))

/-- B, every displacement: exec answers a next state whose pc is pc plus 4 times the signed simm26, mod 2^64, and in which
no register, flag, byte of memory or other field has changed. (R270.) -/
def Obligations.BranchJumpsBySignedWords : Prop :=
  ∀ (simm26 : BitVec 26) (s : State),
    ∃ t, exec (.b simm26) s = .next t ∧ t.pc.toNat = wrapSum s.pc.toNat (simm26.toInt * 4) ∧
      t.flags = s.flags ∧ t.draws = s.draws ∧ OnlyRegs [] s t

/-- Each of B.EQ, B.NE, B.GE, B.LT, B.GT, B.LE and B.AL, every displacement and every flags: exec answers a next state
whose pc is pc plus 4 times the signed simm19, mod 2^64, when the condition holds by the table of R271, and pc plus 4
otherwise; no register, flag, byte of memory or other field has changed. (R271, R272.) -/
def Obligations.ConditionalBranchesFollowTheirConditions : Prop :=
  ∀ (c : Cond) (simm19 : BitVec 19) (s : State),
    ∃ t, exec (condInstr c simm19) s = .next t ∧
      (condMeans c s.flags → t.pc.toNat = wrapSum s.pc.toNat (simm19.toInt * 4)) ∧
      (¬ condMeans c s.flags → t.pc = s.pc + 4#64) ∧
      t.flags = s.flags ∧ t.draws = s.draws ∧ OnlyRegs [] s t

/-- BR, every register index: exec answers a next state whose pc is the full 64 bits of x[xn], with no alignment condition
(0 for index 31), and in which no register, flag, byte of memory or other field has changed. (R273.) -/
def Obligations.BranchRegisterJumpsToItsRegister : Prop :=
  ∀ (xn : RegIdx) (s : State),
    ∃ t, exec (.br xn) s = .next t ∧ t.pc = regResult xn (s.x xn).toNat ∧
      t.flags = s.flags ∧ t.draws = s.draws ∧ OnlyRegs [] s t

/-- exec of HALT answers a next state whose status is Halted and whose pc, registers, flags, memory, stack pointer,
parameters and draw count are as before; and whenever a Running core fetches the word 0x8A000000 without a fetch
error, at any pc, the step answers exactly that state. (R163.) -/
def Obligations.HaltChangesOnlyTheRunStatus : Prop :=
  (∀ s : State, ∃ t, exec .halt s = .next t ∧ t.status = .halted ∧ t.pc = s.pc ∧ t.flags = s.flags ∧
    KeepsRegsBut [] s t ∧ KeepsMem s t ∧ t.sp = s.sp ∧ t.params = s.params ∧ t.draws = s.draws) ∧
  (∀ s : State, Fetches s → Memory.load32 s.mem s.pc.toNat = 0x8A000000#32 → step s = exec .halt s)

/-- For every instruction other than ADDS and SUBS (immediate and shifted register), ANDS and BICS, and every state: when
exec answers a next state, its four flags are those before. (That those six write all four, also for rd = 31, is said
by their own statements.) (R40, R163.) -/
def Obligations.OnlyFlagSettingInstructionsWriteFlags : Prop :=
  ∀ (i : Instr) (s t : State), i.writesFlags = false → exec i s = .next t → t.flags = s.flags

/-- For every instruction that is neither a branch (B, the seven B.cond, BR) nor HALT, and every state: when exec answers
a next state, its pc is the old pc plus 4 on 64 bits. HALT leaves pc as it was. (R37, R163, R166.) -/
def Obligations.EveryOtherInstructionAdvancesPcByFour : Prop :=
  ∀ (i : Instr) (s t : State), exec i s = .next t →
    (i.isBranch = false → i ≠ .halt → t.pc = s.pc + 4#64) ∧ (i = .halt → t.pc = s.pc)

/-- Running any instruction that is no B.cond from states that differ only in their flags gives the same outcome: the same
next state up to the flags, which are the computed ones for a flag-setting instruction and the given ones for the
others, or the same fault; and a B.cond run from states that differ only in C gives next states that differ only in C.
(R41, R271.) -/
def Obligations.OnlyConditionalBranchesReadFlags : Prop :=
  (∀ (i : Instr) (s : State) (f : PState), i.isBranchCond = false →
    (∀ t, exec i s = .next t → exec i (s.setFlags f) = .next (t.setFlags (if i.writesFlags then t.flags else f))) ∧
    (∀ e, exec i s = .fault e → exec i (s.setFlags f) = .fault e)) ∧
  (∀ (c : Cond) (simm19 : BitVec 19) (s t : State) (carry : Bool), exec (condInstr c simm19) s = .next t →
    exec (condInstr c simm19) (s.setFlags { s.flags with c := carry }) =
      .next (t.setFlags { s.flags with c := carry }))

/-- For every instruction and state: when exec answers a next state, its stack pointer and its parameters are those
before, and its run status too unless the instruction is HALT. (That the state holds the parameters of R8, and the
stack pointer of R35, as fields is the model's choice, log 1 and log 14, DESIGN CHOICE.) (R8, R35, R45, R163.) -/
def Obligations.OnlyHaltChangesTheRunStatus : Prop :=
  ∀ (i : Instr) (s t : State), exec i s = .next t →
    t.sp = s.sp ∧ t.params = s.params ∧ (i ≠ .halt → t.status = s.status)

/-- For every instruction and state: exec never answers a refusal; when it answers a fault, the instruction is a load or
store and the fault is BoundsError of an access of 4 or 8 bytes that ends outside the memory, with the pc of the
instruction. (R300, R301, R302, R304, R307.) -/
def Obligations.ExecutionFaultsOnlyOutOfBounds : Prop :=
  ∀ (i : Instr) (s : State),
    (∀ r, exec i s ≠ .refused r) ∧
    (∀ e, exec i s = .fault e → i.isTransfer = true ∧
      ∃ addr n, e = .boundsError addr n s.pc ∧ (n = 4 ∨ n = 8) ∧ Config.memSize < addr + n)

/-- When the core is Running, the fetch raises no error and the word of the four bytes at pc decodes to an instruction i,
the step is exactly exec of i at that state; step adds nothing around exec (the pc advance is inside the meanings).
(R162, R164, R165, R167.) -/
def Obligations.StepRunsTheDecodedInstruction : Prop :=
  ∀ (s : State) (i : Instr), Fetches s → decodeWord (Memory.load32 s.mem s.pc.toNat) = .ok i → step s = exec i s

/-- For a Running core: when FETCH_ALIGN_FAULT is set and pc is no multiple of 4, the step answers FetchAlignError(pc),
whatever else is wrong; otherwise, when pc + 4 is beyond the memory, it answers BoundsError(pc, 4). (R67, R161, R167,
R304, R309, 92_eei_decisions.md D4.) -/
def Obligations.FetchErrorsComeInOrder : Prop :=
  ∀ s : State, s.status = .running →
    (s.params.fetchAlignFault = true ∧ s.pc.toNat % 4 ≠ 0 → step s = .fault (.fetchAlignError s.pc)) ∧
    ((s.params.fetchAlignFault = false ∨ s.pc.toNat % 4 = 0) ∧ Config.memSize < s.pc.toNat + 4 →
      step s = .fault (.boundsError s.pc.toNat 4 s.pc))

/-- For a Running core whose fetch raises no error: when the word at pc matches the row of no instruction of the opcode
table, the step answers DecodeError with that word and that pc. (R140.) -/
def Obligations.UnknownWordsRaiseDecodeError : Prop :=
  ∀ s : State, Fetches s →
    (∀ i : Instr, (opcodeRow i).matchesWord (Memory.load32 s.mem s.pc.toNat) = false) →
    step s = .fault (.decodeError (Memory.load32 s.mem s.pc.toNat) s.pc)

/-- Whenever the run status is not Running, whatever else the state holds, step answers the refusal notRunning (the
model's name for "no step", log 12). (R45, R160.) -/
def Obligations.StoppedCoreTakesNoStep : Prop :=
  ∀ s : State, s.status ≠ .running → step s = .refused .notRunning

/-- When STR (unsigned offset, register offset, pre-index or post-index) of either size completes and its address is the
next instruction's, and that fetch raises no alignment error, the fetch of the state after reads the low 32 bits of
the stored value: of the register, or, for pre-index with rt = xn below 31, of the drawn one of the old base and the
updated address (the spec's decision D11, log 8, DESIGN CHOICE; it holds for every draw). Fetch sees stores without
any action (the spec's decision D18, log 21). (R62, R75, R243, R245, R247, R249, 92_eei_decisions.md D18,
92_eei_decisions.md D11.) -/
def Obligations.StoreIsSeenByTheNextFetch : Prop :=
  (∀ (sf : Width) (imm12 : BitVec 12) (xn rt : RegIdx) (s t : State),
    exec (.strImm sf imm12 xn rt) s = .next t → immOffsetAddr s sf imm12 xn = s.pc + 4#64 →
    (s.params.fetchAlignFault = true → t.pc.toNat % 4 = 0) →
    fetch t = .ok ((s.x rt).setWidth 32)) ∧
  (∀ (sf : Width) (xm xn rt : RegIdx) (s t : State),
    exec (.strReg sf xm xn rt) s = .next t → regOffsetAddr s xm xn = s.pc + 4#64 →
    (s.params.fetchAlignFault = true → t.pc.toNat % 4 = 0) →
    fetch t = .ok ((s.x rt).setWidth 32)) ∧
  (∀ (sf : Width) (simm9 : BitVec 9) (xn rt : RegIdx) (s t : State),
    exec (.strPre sf simm9 xn rt) s = .next t → indexedAddr s simm9 xn = s.pc + 4#64 →
    (s.params.fetchAlignFault = true → t.pc.toNat % 4 = 0) →
    fetch t = .ok ((if rt = xn ∧ rt ≠ 31#5 then overlapStored (Config.wbStore s.draws) (s.x xn) (indexedAddr s simm9 xn)
      else s.x rt).setWidth 32)) ∧
  (∀ (sf : Width) (simm9 : BitVec 9) (xn rt : RegIdx) (s t : State),
    exec (.strPost sf simm9 xn rt) s = .next t → s.x xn = s.pc + 4#64 →
    (s.params.fetchAlignFault = true → t.pc.toNat % 4 = 0) →
    fetch t = .ok ((s.x rt).setWidth 32))

/-- From every state whose memory list is strictly rising, lists no zero byte and lists only addresses below 2^21, a step
that answers a next state gives a state with the same three properties. (The canonical form is the model's
representation; that no byte outside 0 .. 0x1FFFFF exists is R60, R64.) (R44, R60, R64, 20_memory.md section 1.) -/
def Obligations.EveryStepKeepsTheMemoryCanonical : Prop :=
  ∀ s t : State, s.Inv → step s = .next t → t.Inv

/-- After reset under any parameters every register and every byte of memory reads 0, pc is 0, the flags are the four bits
of RESET_NZCV, the status is Running and the invariant holds; under the default parameters all flags are clear. (The
values are the spec's decisions D5 to D8, log 2, 5, 6.) (R47, R330, R331, 92_eei_decisions.md D5 to D8.) -/
def Obligations.ResetStateHasTheStatedValues : Prop :=
  (∀ p : Params,
    (∀ i, (State.resetWith p).x i = 0#64) ∧ (State.resetWith p).pc = 0#64 ∧
    (State.resetWith p).flags = ⟨p.resetNzcv.getLsbD 3, p.resetNzcv.getLsbD 2, p.resetNzcv.getLsbD 1,
      p.resetNzcv.getLsbD 0⟩ ∧
    (∀ a, Memory.read (State.resetWith p).mem a = 0#8) ∧ (State.resetWith p).status = .running ∧
    (State.resetWith p).Inv) ∧
  State.reset.flags = ⟨false, false, false, false⟩

/-- For every instruction with every operand at every value its fields admit, except the one AND whose word is HALT,
decoding its encoded word gives that instruction, and decoding its four bytes followed by any bytes gives it and
leaves those bytes. (That HALT is a decoded constructor of its own, and that AND term not well formed, is the model's
choice, log 11, DESIGN CHOICE.) (R100, R106, R117, R141, R144, 30_encoding.md sections 3 to 6 (R104 to R118),
30_encoding.md section 8 (R127 to R132).) -/
def Obligations.DecodeOfEncodeIsTheInstruction : Prop :=
  ∀ (i : Instr) (rest : List Byte), i.wellFormed = true →
    decodeWord (encode i) = .ok i ∧ decodeBytes (encodeBytes i ++ rest) = .ok (i, rest)

/-- Whenever a word decodes to an instruction, that instruction is well formed and its encoding is the word: the decoder
drops no bit of a word it accepts, so no two words decode to one instruction. (That no word decodes to the AND term
that spells HALT, HALT being a constructor of its own, is the model's choice, log 11, DESIGN CHOICE; that every fixed
bit is checked is the spec's decision D2, log 16.) (R136, R141, R143, 92_eei_decisions.md D2.) -/
def Obligations.EncodeOfDecodeIsTheWord : Prop :=
  ∀ (w : InstrWord) (i : Instr), decodeWord w = .ok i → i.wellFormed = true ∧ encode i = w

/-- Every word other than 0x8A000000 decodes to some instruction of a row exactly when it matches the row's match and
mask; 0x8A000000 decodes to HALT. So the rows overlap only in that word, and a word that no row matches is rejected.
(That the decoder itself answers HALT for that word, which by R136 it never sees, is the model's choice, log 11,
DESIGN CHOICE; that every word outside the table is rejected is the spec's decisions D2 and D15, log 16.) (R135, R136,
R140, R141, R143, 30_encoding.md section 10, 92_eei_decisions.md D2, D15.) -/
def Obligations.DecoderAcceptsExactlyTheOpcodeTable : Prop :=
  (∀ (w : InstrWord) (j : Instr), w ≠ 0x8A000000#32 →
    ((opcodeRow j).matchesWord w = true ↔ ∃ i, decodeWord w = .ok i ∧ opcodeRow i = opcodeRow j)) ∧
  decodeWord 0x8A000000#32 = .ok .halt

/-- Thirteen words of 95_test_vectors.md, one for each of the twelve formats and HALT, decode to the instructions written
beside them there (that 0x8A000000 decodes to a HALT constructor, where section 1.3 there reads it as RegLogic, is the
model's choice, log 11, DESIGN CHOICE), and the all-zero word, the A64 NOP and a B.cond with condition 3 are rejected.
(95_test_vectors.md sections 1 and 2, R141, R142.) -/
def Obligations.SampleWordsDecodeAsTheSpecWritesThem : Prop :=
  decodeWord 0x14000002#32 = .ok (.b 2#26) ∧
  decodeWord 0x58000040#32 = .ok (.ldrLit .w64 2#19 0#5) ∧
  decodeWord 0xB9400820#32 = .ok (.ldrImm .w32 2#12 1#5 0#5) ∧
  decodeWord 0xF8226820#32 = .ok (.strReg .w64 2#5 1#5 0#5) ∧
  decodeWord 0x91000420#32 = .ok (.addImm .w64 false 1#12 1#5 0#5) ∧
  decodeWord 0xF2B579A0#32 = .ok (.movk .w64 1#2 0xABCD#16 0#5) ∧
  decodeWord 0x2B827C20#32 = .ok (.addsReg .w32 .asr 2#5 31#6 1#5 0#5) ∧
  decodeWord 0x8A220020#32 = .ok (.bicReg .w64 .lsl 2#5 0#6 1#5 0#5) ∧
  decodeWord 0x9B028C20#32 = .ok (.msub .w64 2#5 3#5 1#5 0#5) ∧
  decodeWord 0xB85F8C20#32 = .ok (.ldrPre .w32 0x1F8#9 1#5 0#5) ∧
  decodeWord 0x54FFFFC1#32 = .ok (.bNe 0x7FFFE#19) ∧
  decodeWord 0xD61F0060#32 = .ok (.br 3#5) ∧
  decodeWord 0x8A000000#32 = .ok .halt ∧
  decodeWord 0x00000000#32 = .error .noGroup ∧
  decodeWord 0xD503201F#32 = .error .branchFixedBits ∧
  decodeWord 0x54000003#32 = .error .branchCondition

/-- For every memory, every address, aligned or not, and every value: after an 8-byte store the 8-byte load gives the
value, the 4-byte load its low half and the 4-byte load at the address plus 4 its high half; after a 4-byte store the
4-byte load gives the value; and byte a + k of an access is bits 8k+7 to 8k. (R14, R63, R66.) -/
def Obligations.LoadAfterStoreGivesTheStoredValue : Prop :=
  ∀ (m : Memory) (a : Nat) (v : BitVec 64) (u : BitVec 32),
    Memory.load64 (Memory.store64 m a v) a = v ∧
    Memory.load32 (Memory.store64 m a v) a = v.extractLsb' 0 32 ∧
    Memory.load32 (Memory.store64 m a v) (a + 4) = v.extractLsb' 32 32 ∧
    Memory.load32 (Memory.store32 m a u) a = u ∧
    (∀ k, k < 4 → (Memory.load32 m a).extractLsb' (8 * k) 8 = Memory.read m (a + k)) ∧
    (∀ k, k < 8 → (Memory.load64 m a).extractLsb' (8 * k) 8 = Memory.read m (a + k))

/-- Two memory lists in canonical form that give the same byte at every address are equal. (The list is the model's
representation, log 6.) (R44, R69, 20_memory.md section 1.) -/
def Obligations.CanonicalMemoriesWithEqualBytesAreEqual : Prop :=
  ∀ m m' : Memory, Memory.wf m → Memory.wf m' → (∀ a, Memory.read m a = Memory.read m' a) → m = m'

/-- For every parameters and every image no longer than the memory, of any length, booting gives a Running state with pc
0, every register 0, the four flags RESET_NZCV and the given parameters, that meets the invariant, in which byte k is
byte k of the image and every byte from its length up reads 0; for a longer image it raises ImageLoadError with the
length and the core is Faulted with that error. (The reset values are the spec's decisions D5 to D8, log 2, 5, 6; that
the parameters are a field is the model's choice, log 1, DESIGN CHOICE.) (R45, R303, R306, R330, R331,
92_eei_decisions.md D5 to D8, D19.) -/
def Obligations.ImageLoadCopiesVerbatimAtZero : Prop :=
  ∀ (p : Params) (image : List Byte),
    (image.length ≤ Config.memSize →
      ∃ s, boot p image = .done () s ∧ s.pc = 0#64 ∧ s.status = .running ∧ s.Inv ∧
        (∀ k, Memory.read s.mem k = image.getD k 0#8) ∧ (∀ i, s.x i = 0#64) ∧
        s.flags = ⟨p.resetNzcv.getLsbD 3, p.resetNzcv.getLsbD 2, p.resetNzcv.getLsbD 1, p.resetNzcv.getLsbD 0⟩ ∧
        s.params = p) ∧
    (Config.memSize < image.length →
      ∃ s, boot p image = .raised (.imageLoadError image.length) s ∧
        s.status = .faulted (.imageLoadError image.length))

/-- The read an instruction makes at width W is x[i] mod 2^W. For every state, index i and value: read64 gives x[i] and
read32 its low half for i up to 30, both give 0 for i = 31, and both leave the state as it is; a write to i up to 30
is read back by read64 and leaves every other register, pc, the flags, memory and every other field as before, and a
write to 31 leaves the whole state as it is; for i above 31 all three raise the register BoundsError with that index,
and a Running core becomes Faulted with it (that a core that was not Running stays as it was is the model's choice,
log 25, DESIGN CHOICE). No instruction can present such an index: the fields are 5 bits, so exec never gives that
error. (R13, R32, R33, R45, R302, R306, R341.) -/
def Obligations.RegisterAccessorsCheckTheirIndex : Prop :=
  (∀ (s : State) (sf : Width) (r : RegIdx), (s.readW sf r).toNat = (s.x r).toNat % 2 ^ sf.bits) ∧
  (∀ (s : State) (i : Nat) (v : Word),
    (i ≤ 31 →
      hostRead64 s i = .done (if i = 31 then 0#64 else s.x (BitVec.ofNat 5 i)) s ∧
      hostRead32 s i = .done (if i = 31 then 0#32 else (s.x (BitVec.ofNat 5 i)).extractLsb' 0 32) s ∧
      ∃ t, hostWrite s i v = .done () t ∧ hostRead64 t i = .done (if i = 31 then 0#64 else v) t ∧
        OnlyRegs [BitVec.ofNat 5 i] s t ∧ t.pc = s.pc ∧ t.flags = s.flags ∧ t.draws = s.draws ∧ (i = 31 → t = s)) ∧
    (31 < i →
      ∃ t, hostRead64 s i = .raised (.registerBoundsError i) t ∧ hostRead32 s i = .raised (.registerBoundsError i) t ∧
        hostWrite s i v = .raised (.registerBoundsError i) t ∧ AfterHostError (.registerBoundsError i) s t)) ∧
  (∀ (j : Instr) (s : State) (k : Nat), exec j s ≠ .fault (.registerBoundsError k))

/-- For a Running core: the report is Halted exactly when the step fetched the HALT word, Faulted(e) exactly when the step
raised e, and otherwise Running; the state it leaves carries the reported status, and is the step's next state when
there is one. (The report is R342; that the state carries it is R45 and R306, and that a faulted core is otherwise
unknown is the model's form of them, log 10, DESIGN CHOICE.) (R45, R167, R306, R342.) -/
def Obligations.SingleStepReportsTheRunStatus : Prop :=
  ∀ s : State, s.status = .running →
    ((stepInstruction s).2 = .halted ↔ fetch s = .ok 0x8A000000#32) ∧
    (∀ e, (stepInstruction s).2 = .faulted e ↔ step s = .fault e) ∧
    (stepInstruction s).1.status = (stepInstruction s).2 ∧
    (∀ t, step s = .next t → (stepInstruction s).1 = t)

/-- For every state the dump begins with Registers:, one line for each of X00 to X30 (X, two decimal digits, four spaces,
=, a space, the sixteen lower-case hex digits of the register), the PC line, the flags line with the letters N, Z, C,
V of the set flags and - for the others, and Non-Zero Memory:, each line ended by a newline (the line ends are the
spec's decision D23, log 23). (R350, 92_eei_decisions.md D23.) -/
def Obligations.DumpPrintsRegistersPcAndFlags : Prop :=
  ∀ s : State, ∃ memoryLines : List Char,
    dump s = "Registers:\n".toList ++
      ((List.range 31).flatMap fun i =>
        'X' :: Nat.digitChar (i / 10) :: Nat.digitChar (i % 10) :: "    = ".toList ++ hexText (s.x (BitVec.ofNat 5 i)).toNat 16 ++
          ['\n']) ++
      "PC     = ".toList ++ hexText s.pc.toNat 16 ++ ['\n'] ++ "PSTATE : ".toList ++
      [if s.flags.n then 'N' else '-', if s.flags.z then 'Z' else '-', if s.flags.c then 'C' else '-',
        if s.flags.v then 'V' else '-', '\n'] ++
      "Non-Zero Memory:\n".toList ++ memoryLines

/-- For every state that meets the invariant, the dump is its part before the memory lines followed by one line for each
address of a list; the list is strictly increasing and holds exactly the multiples of 4 up to MEM_SIZE - 4 whose
little-endian word is not 0; and a line is 0x, the eight lower-case hex digits of the address, a colon, a space, the
eight lower-case hex digits of the word and a newline (D23, log 23). (R351, R350, 92_eei_decisions.md D23.) -/
def Obligations.DumpListsTheNonZeroAlignedWords : Prop :=
  ∀ s : State, s.Inv →
    ∃ (front : List Char) (addrs : List Nat),
      dump s = front ++ addrs.flatMap (fun a =>
        "0x".toList ++ hexText a 8 ++ ": ".toList ++ hexText (Memory.load32 s.mem a).toNat 8 ++ ['\n']) ∧
      dump { s with mem := [] } = front ∧ addrs.Pairwise (· < ·) ∧
      ∀ a, a ∈ addrs ↔ a % 4 = 0 ∧ a ≤ Config.memSize - 4 ∧ Memory.load32 s.mem a ≠ 0#32

end
end

