-- ==== Sys2Proof/Laws/State.lean ====
section
/-!
SUPPORT. What each update of State leaves in each field, so that no later proof unfolds a record update, and the read of a
register after each update.
-/

namespace Sys2Proof.Machine

/-! ### setFlags -/

@[simp] theorem State.setFlags_regs (s : State) (f : PState) : (s.setFlags f).regs = s.regs := rfl
@[simp] theorem State.setFlags_pc (s : State) (f : PState) : (s.setFlags f).pc = s.pc := rfl
@[simp] theorem State.setFlags_flags (s : State) (f : PState) : (s.setFlags f).flags = f := rfl
@[simp] theorem State.setFlags_mem (s : State) (f : PState) : (s.setFlags f).mem = s.mem := rfl
@[simp] theorem State.setFlags_status (s : State) (f : PState) : (s.setFlags f).status = s.status := rfl
@[simp] theorem State.setFlags_sp (s : State) (f : PState) : (s.setFlags f).sp = s.sp := rfl
@[simp] theorem State.setFlags_params (s : State) (f : PState) : (s.setFlags f).params = s.params := rfl
@[simp] theorem State.setFlags_draws (s : State) (f : PState) : (s.setFlags f).draws = s.draws := rfl
@[simp] theorem State.setFlags_x (s : State) (f : PState) (j : RegIdx) : (s.setFlags f).x j = s.x j := rfl

/-! ### setPc -/

@[simp] theorem State.setPc_regs (s : State) (a : Word) : (s.setPc a).regs = s.regs := rfl
@[simp] theorem State.setPc_pc (s : State) (a : Word) : (s.setPc a).pc = a := rfl
@[simp] theorem State.setPc_flags (s : State) (a : Word) : (s.setPc a).flags = s.flags := rfl
@[simp] theorem State.setPc_mem (s : State) (a : Word) : (s.setPc a).mem = s.mem := rfl
@[simp] theorem State.setPc_status (s : State) (a : Word) : (s.setPc a).status = s.status := rfl
@[simp] theorem State.setPc_sp (s : State) (a : Word) : (s.setPc a).sp = s.sp := rfl
@[simp] theorem State.setPc_params (s : State) (a : Word) : (s.setPc a).params = s.params := rfl
@[simp] theorem State.setPc_draws (s : State) (a : Word) : (s.setPc a).draws = s.draws := rfl
@[simp] theorem State.setPc_x (s : State) (a : Word) (j : RegIdx) : (s.setPc a).x j = s.x j := rfl

/-! ### advance -/

@[simp] theorem State.advance_regs (s : State) : (s.advance).regs = s.regs := rfl
@[simp] theorem State.advance_pc (s : State) : (s.advance).pc = s.pc + 4#64 := rfl
@[simp] theorem State.advance_flags (s : State) : (s.advance).flags = s.flags := rfl
@[simp] theorem State.advance_mem (s : State) : (s.advance).mem = s.mem := rfl
@[simp] theorem State.advance_status (s : State) : (s.advance).status = s.status := rfl
@[simp] theorem State.advance_sp (s : State) : (s.advance).sp = s.sp := rfl
@[simp] theorem State.advance_params (s : State) : (s.advance).params = s.params := rfl
@[simp] theorem State.advance_draws (s : State) : (s.advance).draws = s.draws := rfl
@[simp] theorem State.advance_x (s : State) (j : RegIdx) : (s.advance).x j = s.x j := rfl

/-! ### setMem -/

@[simp] theorem State.setMem_regs (s : State) (m : Memory) : (s.setMem m).regs = s.regs := rfl
@[simp] theorem State.setMem_pc (s : State) (m : Memory) : (s.setMem m).pc = s.pc := rfl
@[simp] theorem State.setMem_flags (s : State) (m : Memory) : (s.setMem m).flags = s.flags := rfl
@[simp] theorem State.setMem_mem (s : State) (m : Memory) : (s.setMem m).mem = m := rfl
@[simp] theorem State.setMem_status (s : State) (m : Memory) : (s.setMem m).status = s.status := rfl
@[simp] theorem State.setMem_sp (s : State) (m : Memory) : (s.setMem m).sp = s.sp := rfl
@[simp] theorem State.setMem_params (s : State) (m : Memory) : (s.setMem m).params = s.params := rfl
@[simp] theorem State.setMem_draws (s : State) (m : Memory) : (s.setMem m).draws = s.draws := rfl
@[simp] theorem State.setMem_x (s : State) (m : Memory) (j : RegIdx) : (s.setMem m).x j = s.x j := rfl

/-! ### setStatus -/

@[simp] theorem State.setStatus_regs (s : State) (r : RunStatus) : (s.setStatus r).regs = s.regs := rfl
@[simp] theorem State.setStatus_pc (s : State) (r : RunStatus) : (s.setStatus r).pc = s.pc := rfl
@[simp] theorem State.setStatus_flags (s : State) (r : RunStatus) : (s.setStatus r).flags = s.flags := rfl
@[simp] theorem State.setStatus_mem (s : State) (r : RunStatus) : (s.setStatus r).mem = s.mem := rfl
@[simp] theorem State.setStatus_status (s : State) (r : RunStatus) : (s.setStatus r).status = r := rfl
@[simp] theorem State.setStatus_sp (s : State) (r : RunStatus) : (s.setStatus r).sp = s.sp := rfl
@[simp] theorem State.setStatus_params (s : State) (r : RunStatus) : (s.setStatus r).params = s.params := rfl
@[simp] theorem State.setStatus_draws (s : State) (r : RunStatus) : (s.setStatus r).draws = s.draws := rfl
@[simp] theorem State.setStatus_x (s : State) (r : RunStatus) (j : RegIdx) : (s.setStatus r).x j = s.x j := rfl

/-! ### countDraw -/

@[simp] theorem State.countDraw_regs (s : State) : (s.countDraw).regs = s.regs := rfl
@[simp] theorem State.countDraw_pc (s : State) : (s.countDraw).pc = s.pc := rfl
@[simp] theorem State.countDraw_flags (s : State) : (s.countDraw).flags = s.flags := rfl
@[simp] theorem State.countDraw_mem (s : State) : (s.countDraw).mem = s.mem := rfl
@[simp] theorem State.countDraw_status (s : State) : (s.countDraw).status = s.status := rfl
@[simp] theorem State.countDraw_sp (s : State) : (s.countDraw).sp = s.sp := rfl
@[simp] theorem State.countDraw_params (s : State) : (s.countDraw).params = s.params := rfl
@[simp] theorem State.countDraw_draws (s : State) : (s.countDraw).draws = s.draws + 1 := rfl
@[simp] theorem State.countDraw_x (s : State) (j : RegIdx) : (s.countDraw).x j = s.x j := rfl

/-! ### setX and writeW -/

@[simp] theorem State.setX_pc (s : State) (i : RegIdx) (v : Word) : (s.setX i v).pc = s.pc := by
  unfold State.setX; split <;> rfl
@[simp] theorem State.setX_flags (s : State) (i : RegIdx) (v : Word) : (s.setX i v).flags = s.flags := by
  unfold State.setX; split <;> rfl
@[simp] theorem State.setX_mem (s : State) (i : RegIdx) (v : Word) : (s.setX i v).mem = s.mem := by
  unfold State.setX; split <;> rfl
@[simp] theorem State.setX_status (s : State) (i : RegIdx) (v : Word) : (s.setX i v).status = s.status := by
  unfold State.setX; split <;> rfl
@[simp] theorem State.setX_sp (s : State) (i : RegIdx) (v : Word) : (s.setX i v).sp = s.sp := by
  unfold State.setX; split <;> rfl
@[simp] theorem State.setX_params (s : State) (i : RegIdx) (v : Word) : (s.setX i v).params = s.params := by
  unfold State.setX; split <;> rfl
@[simp] theorem State.setX_draws (s : State) (i : RegIdx) (v : Word) : (s.setX i v).draws = s.draws := by
  unfold State.setX; split <;> rfl

@[simp] theorem State.writeW_pc (s : State) (sf : Width) (i : RegIdx) (v : BitVec sf.bits) :
    (s.writeW sf i v).pc = s.pc := by
  simp [State.writeW]
@[simp] theorem State.writeW_flags (s : State) (sf : Width) (i : RegIdx) (v : BitVec sf.bits) :
    (s.writeW sf i v).flags = s.flags := by
  simp [State.writeW]
@[simp] theorem State.writeW_mem (s : State) (sf : Width) (i : RegIdx) (v : BitVec sf.bits) :
    (s.writeW sf i v).mem = s.mem := by
  simp [State.writeW]
@[simp] theorem State.writeW_status (s : State) (sf : Width) (i : RegIdx) (v : BitVec sf.bits) :
    (s.writeW sf i v).status = s.status := by
  simp [State.writeW]
@[simp] theorem State.writeW_sp (s : State) (sf : Width) (i : RegIdx) (v : BitVec sf.bits) :
    (s.writeW sf i v).sp = s.sp := by
  simp [State.writeW]
@[simp] theorem State.writeW_params (s : State) (sf : Width) (i : RegIdx) (v : BitVec sf.bits) :
    (s.writeW sf i v).params = s.params := by
  simp [State.writeW]
@[simp] theorem State.writeW_draws (s : State) (sf : Width) (i : RegIdx) (v : BitVec sf.bits) :
    (s.writeW sf i v).draws = s.draws := by
  simp [State.writeW]

/-- The zero register reads 0 (R31). -/
@[simp] theorem State.x_zero (s : State) : s.x 31#5 = 0#64 := by
  simp [State.x]

/-- A write to the zero register changes nothing (R31). -/
@[simp] theorem State.setX_zero (s : State) (v : Word) : s.setX 31#5 v = s := by
  simp [State.setX]

/-- An index other than 31 names one of the 31 registers. -/
theorem regIdx_lt_of_ne {i : RegIdx} (h : i ≠ 31#5) : i.toNat < 31 := by
  bv_omega

/-- The read of any register after a register write (R13, R31). -/
theorem State.setX_x (s : State) (i j : RegIdx) (v : Word) :
    (s.setX i v).x j = if j = i ∧ i ≠ 31#5 then v else s.x j := by
  by_cases hi : i = 31#5
  · subst hi; simp
  · have hlt := regIdx_lt_of_ne hi
    by_cases hj : j.toNat < 31
    · by_cases hij : j = i
      · subst hij; simp [State.x, State.setX, hlt, hi]
      · have : i.toNat ≠ j.toNat := fun h => hij (BitVec.eq_of_toNat_eq h.symm)
        simp [State.x, State.setX, hlt, hj, hij, this]
    · have hne : j ≠ i := fun h => hj (h ▸ hlt)
      simp [State.x, hj, hne]

/-- The written register reads the written value, unless it is the zero register. -/
theorem State.setX_x_self (s : State) (i : RegIdx) (v : Word) : (s.setX i v).x i = if i = 31#5 then 0#64 else v := by
  by_cases h : i = 31#5
  · subst h; simp
  · simp [State.setX_x, h]

/-- Another register keeps its value. -/
theorem State.setX_x_of_ne (s : State) {i j : RegIdx} (v : Word) (h : j ≠ i) : (s.setX i v).x j = s.x j := by
  simp [State.setX_x, h]

/-- The read of any register after a `writeW` (R13, R32). -/
theorem State.writeW_x (s : State) (sf : Width) (i j : RegIdx) (v : BitVec sf.bits) :
    (s.writeW sf i v).x j = if j = i ∧ i ≠ 31#5 then v.setWidth 64 else s.x j :=
  State.setX_x s i j _

/-! ### The conditional updates -/

@[simp] theorem afterShift_regs (s : State) (sf : Width) (shift : ShiftType) (operand : BitVec 6) :
    (afterShift s sf shift operand).regs = s.regs := by
  unfold afterShift; split <;> rfl
@[simp] theorem afterShift_pc (s : State) (sf : Width) (shift : ShiftType) (operand : BitVec 6) :
    (afterShift s sf shift operand).pc = s.pc := by
  unfold afterShift; split <;> rfl
@[simp] theorem afterShift_flags (s : State) (sf : Width) (shift : ShiftType) (operand : BitVec 6) :
    (afterShift s sf shift operand).flags = s.flags := by
  unfold afterShift; split <;> rfl
@[simp] theorem afterShift_mem (s : State) (sf : Width) (shift : ShiftType) (operand : BitVec 6) :
    (afterShift s sf shift operand).mem = s.mem := by
  unfold afterShift; split <;> rfl
@[simp] theorem afterShift_status (s : State) (sf : Width) (shift : ShiftType) (operand : BitVec 6) :
    (afterShift s sf shift operand).status = s.status := by
  unfold afterShift; split <;> rfl
@[simp] theorem afterShift_sp (s : State) (sf : Width) (shift : ShiftType) (operand : BitVec 6) :
    (afterShift s sf shift operand).sp = s.sp := by
  unfold afterShift; split <;> rfl
@[simp] theorem afterShift_params (s : State) (sf : Width) (shift : ShiftType) (operand : BitVec 6) :
    (afterShift s sf shift operand).params = s.params := by
  unfold afterShift; split <;> rfl
@[simp] theorem afterShift_x (s : State) (sf : Width) (shift : ShiftType) (operand : BitVec 6) (j : RegIdx) :
    (afterShift s sf shift operand).x j = s.x j := by
  unfold afterShift; split <;> rfl
@[simp] theorem afterShift_draws (s : State) (sf : Width) (shift : ShiftType) (operand : BitVec 6) :
    (afterShift s sf shift operand).draws = s.draws + (if isOversize sf shift operand then 1 else 0) := by
  unfold afterShift; split <;> simp_all

end Sys2Proof.Machine
end

