-- ==== Sys2Proof/Laws/Host.lean ====
section
/-!
SUPPORT. What an error leaves of the core, and how each host access ends.
-/

namespace Sys2Proof.Machine

/-! ### The core after an error -/

@[simp] theorem faultedState_status (s : State) (e : Fault) : (faultedState s e).status = .faulted e := rfl
@[simp] theorem faultedState_params (s : State) (e : Fault) : (faultedState s e).params = s.params := rfl
@[simp] theorem faultedState_draws (s : State) (e : Fault) : (faultedState s e).draws = s.draws := rfl

/-- A raise makes a Running core Faulted and leaves any other as it is. -/
theorem afterHostRaise_spec (s : State) (e : Fault) : AfterHostError e s (afterHostRaise s e) := by
  unfold AfterHostError afterHostRaise
  cases s.status <;> simp

/-- No raise by the host leaves a core Running. -/
theorem afterHostRaise_ne_running (s : State) (e : Fault) : (afterHostRaise s e).status ≠ .running := by
  unfold afterHostRaise
  split <;> simp_all

/-! ### The two checks of the accessors -/

theorem withHostReg_of_le {α : Type} (s : State) {i : Nat} (access : RegIdx → HostResult α) (h : i ≤ 31) :
    withHostReg s i access = access (BitVec.ofNat 5 i) :=
  if_pos h

theorem withHostReg_of_lt {α : Type} (s : State) {i : Nat} (access : RegIdx → HostResult α) (h : 31 < i) :
    withHostReg s i access = hostRaise s (.registerBoundsError i) :=
  if_neg (Nat.not_le_of_lt h)

theorem withHostBounds_of_le {α : Type} (s : State) {a : BitVec 32} {n : Nat} (access : HostResult α)
    (h : a.toNat + n ≤ Config.memSize) : withHostBounds s a n access = access :=
  if_pos h

theorem withHostBounds_of_lt {α : Type} (s : State) {a : BitVec 32} {n : Nat} (access : HostResult α)
    (h : Config.memSize < a.toNat + n) :
    withHostBounds s a n access = hostRaise s (.boundsError a.toNat n s.pc) :=
  if_neg (Nat.not_le_of_lt h)

end Sys2Proof.Machine
end

