-- ==== Sys2Proof/Laws/Memory.lean ====
section
/-!
SUPPORT. The laws of the memory operations: what a read gives after a write, and that every operation keeps the canonical
form and the address space.
-/

namespace Sys2Proof.Machine

/-! ### One byte -/

theorem Memory.read_erase (m : Memory) (a b : Nat) :
    Memory.read (Memory.erase m a) b = if b = a then 0#8 else Memory.read m b := by
  induction m with
  | nil => simp [Memory.erase, Memory.read]
  | cons cell rest ih =>
    obtain ⟨k, v⟩ := cell
    unfold Memory.erase at ih ⊢
    by_cases hka : k = a
    · subst hka
      by_cases hb : b = k
      · subst hb; simpa using ih
      · have : k ≠ b := fun h => hb h.symm
        simpa [Memory.read, hb, this] using ih
    · by_cases hkb : k = b
      · subst hkb; simp [Memory.read, hka]
      · simpa [Memory.read, hka, hkb] using ih

theorem Memory.read_insert_of_ne (m : Memory) (a b : Nat) (v : Byte) (h : b ≠ a) :
    Memory.read (Memory.insert m a v) b = Memory.read m b := by
  induction m with
  | nil => simp [Memory.insert, Memory.read, h.symm]
  | cons cell rest ih =>
    obtain ⟨k, u⟩ := cell
    unfold Memory.insert
    split
    · simp [Memory.read, h.symm]
    · simp [Memory.read, ih]

theorem Memory.read_insert_self (m : Memory) (a : Nat) (v : Byte) (h : ∀ cell ∈ m, cell.1 ≠ a) :
    Memory.read (Memory.insert m a v) a = v := by
  induction m with
  | nil => simp [Memory.insert, Memory.read]
  | cons cell rest ih =>
    obtain ⟨k, u⟩ := cell
    unfold Memory.insert
    have hk : k ≠ a := h (k, u) (by simp)
    split
    · simp [Memory.read]
    · simp only [Memory.read, hk, if_false]
      exact ih fun c hc => h c (by simp [hc])

theorem Memory.mem_erase {m : Memory} {a : Nat} {cell : Host.Cell} :
    cell ∈ Memory.erase m a ↔ cell ∈ m ∧ cell.1 ≠ a := by
  simp [Memory.erase]

/-- The byte written is the byte read there, and every other byte is as before, in any memory. -/
theorem Memory.read_write (m : Memory) (a b : Nat) (v : Byte) :
    Memory.read (Memory.write m a v) b = if b = a then v else Memory.read m b := by
  unfold Memory.write
  by_cases hv : v = 0#8
  · subst hv; simp [Memory.read_erase]
  · simp only [hv, if_false]
    by_cases hb : b = a
    · subst hb
      simp only [if_true]
      exact Memory.read_insert_self _ _ _ fun c hc => (Memory.mem_erase.mp hc).2
    · rw [Memory.read_insert_of_ne _ _ _ _ hb, Memory.read_erase, if_neg hb, if_neg hb]

theorem Memory.mem_insert {m : Memory} {a : Nat} {v : Byte} {cell : Host.Cell} :
    cell ∈ Memory.insert m a v ↔ cell = (a, v) ∨ cell ∈ m := by
  induction m with
  | nil => simp [Memory.insert]
  | cons head rest ih =>
    obtain ⟨k, u⟩ := head
    unfold Memory.insert
    split
    · simp
    · simp only [List.mem_cons, ih]; tauto

theorem Memory.mem_write {m : Memory} {a : Nat} {v : Byte} {cell : Host.Cell} (h : cell ∈ Memory.write m a v) :
    (cell = (a, v) ∧ v ≠ 0#8) ∨ (cell ∈ m ∧ cell.1 ≠ a) := by
  unfold Memory.write at h
  split at h
  · exact .inr (Memory.mem_erase.mp h)
  · rcases Memory.mem_insert.mp h with rfl | h
    · exact .inl ⟨rfl, ‹_›⟩
    · exact .inr (Memory.mem_erase.mp h)

/-! ### The canonical form -/

theorem Memory.erase_wf {m : Memory} (a : Nat) (h : Memory.wf m) : Memory.wf (Memory.erase m a) :=
  ⟨h.1.filter _, fun c hc => h.2 c (Memory.mem_erase.mp hc).1⟩

theorem Memory.insert_wf {m : Memory} {a : Nat} {v : Byte} (h : Memory.wf m) (hv : v ≠ 0#8)
    (ha : ∀ cell ∈ m, cell.1 ≠ a) : Memory.wf (Memory.insert m a v) := by
  induction m with
  | nil => simpa [Memory.wf, Memory.insert] using hv
  | cons head rest ih =>
    obtain ⟨k, u⟩ := head
    obtain ⟨hs, hz⟩ := h
    rw [List.pairwise_cons] at hs
    have hrest : Memory.wf rest := ⟨hs.2, fun c hc => hz c (by simp [hc])⟩
    unfold Memory.insert
    split
    · rename_i hlt
      refine ⟨List.pairwise_cons.mpr ⟨fun c hc => ?_, List.pairwise_cons.mpr hs⟩, fun c hc => ?_⟩
      · rcases List.mem_cons.mp hc with rfl | hc
        · exact hlt
        · exact Nat.lt_trans hlt (hs.1 c hc)
      · rcases List.mem_cons.mp hc with rfl | hc
        · exact hv
        · exact hz c hc
    · rename_i hge
      have hka : k ≠ a := ha (k, u) (by simp)
      have ih := ih hrest fun c hc => ha c (by simp [hc])
      refine ⟨List.pairwise_cons.mpr ⟨fun c hc => ?_, ih.1⟩, fun c hc => ?_⟩
      · rcases Memory.mem_insert.mp hc with rfl | hc
        · show k < a; omega
        · exact hs.1 c hc
      · rcases List.mem_cons.mp hc with rfl | hc
        · exact hz _ (by simp)
        · exact ih.2 c hc

/-- A byte write keeps the canonical form. -/
theorem Memory.write_wf {m : Memory} (a : Nat) (v : Byte) (h : Memory.wf m) : Memory.wf (Memory.write m a v) := by
  unfold Memory.write
  split
  · exact Memory.erase_wf a h
  · exact Memory.insert_wf (Memory.erase_wf a h) ‹_› fun c hc => (Memory.mem_erase.mp hc).2

/-- A byte write inside the memory keeps every listed address inside it. -/
theorem Memory.write_inSpace {m : Memory} {a : Nat} (v : Byte) (h : Memory.inSpace m) (ha : a < Config.memSize) :
    Memory.inSpace (Memory.write m a v) := by
  intro c hc
  rcases Memory.mem_write hc with ⟨rfl, -⟩ | ⟨hc, -⟩
  · exact ha
  · exact h c hc

/-- A 4-byte store keeps the canonical form. -/
theorem Memory.store32_wf {m : Memory} (a : Nat) (v : BitVec 32) (h : Memory.wf m) : Memory.wf (Memory.store32 m a v) :=
  Memory.write_wf _ _ (Memory.write_wf _ _ (Memory.write_wf _ _ (Memory.write_wf _ _ h)))

/-- An 8-byte store keeps the canonical form. -/
theorem Memory.store64_wf {m : Memory} (a : Nat) (v : BitVec 64) (h : Memory.wf m) : Memory.wf (Memory.store64 m a v) :=
  Memory.store32_wf _ _ (Memory.store32_wf _ _ h)

/-- A store of either size keeps the canonical form. -/
theorem Memory.storeWidth_wf {m : Memory} (sf : Width) (a : Nat) (v : Word) (h : Memory.wf m) :
    Memory.wf (Memory.storeWidth m sf a v) := by
  cases sf
  · exact Memory.store32_wf _ _ h
  · exact Memory.store64_wf _ _ h

/-- A 4-byte store in range stays inside the memory. -/
theorem Memory.store32_inSpace {m : Memory} {a : Nat} (v : BitVec 32) (h : Memory.inSpace m) (ha : inBounds a 4) :
    Memory.inSpace (Memory.store32 m a v) := by
  unfold inBounds at ha
  exact Memory.write_inSpace _ (Memory.write_inSpace _ (Memory.write_inSpace _ (Memory.write_inSpace _ h (by omega))
    (by omega)) (by omega)) (by omega)

/-- A store of either size in range stays inside the memory. -/
theorem Memory.storeWidth_inSpace {m : Memory} {a : Nat} (sf : Width) (v : Word) (h : Memory.inSpace m)
    (ha : inBounds a sf.bytes) : Memory.inSpace (Memory.storeWidth m sf a v) := by
  cases sf <;> simp only [Width.bytes, inBounds] at ha
  · exact Memory.store32_inSpace _ h ha
  · exact Memory.store32_inSpace _ (Memory.store32_inSpace _ h (by unfold inBounds; omega)) (by unfold inBounds; omega)

/-- Copying an image keeps the canonical form. -/
theorem Memory.copy_wf {m : Memory} (a : Nat) (bytes : List Byte) (h : Memory.wf m) :
    Memory.wf (Memory.copy m a bytes) := by
  induction bytes generalizing m a with
  | nil => exact h
  | cons byte rest ih => exact ih (a + 1) (Memory.write_wf a byte h)

/-- Copying an image that ends inside the memory stays inside it. -/
theorem Memory.copy_inSpace {m : Memory} {a : Nat} (bytes : List Byte) (h : Memory.inSpace m)
    (ha : inBounds a bytes.length) : Memory.inSpace (Memory.copy m a bytes) := by
  induction bytes generalizing m a with
  | nil => exact h
  | cons byte rest ih =>
    simp only [inBounds, List.length_cons] at ha
    exact ih (Memory.write_inSpace byte h (by omega)) (by unfold inBounds; omega)

/-- The empty memory of reset is canonical. -/
theorem Memory.reset_wf : Memory.wf State.reset.mem := by
  simp [State.reset, State.resetWith, Memory.wf]

/-! ### Wider accesses -/

/-- What a read gives after a 4-byte store. -/
theorem Memory.read_store32 (m : Memory) (a b : Nat) (v : BitVec 32) :
    Memory.read (Memory.store32 m a v) b =
      if b = a + 3 then bitField v 24 8 else if b = a + 2 then bitField v 16 8 else if b = a + 1 then bitField v 8 8
      else if b = a then bitField v 0 8 else Memory.read m b := by
  simp [Memory.store32, Memory.read_write]

/-- A store of either size leaves the bytes outside it alone. -/
theorem Memory.read_storeWidth_outside (m : Memory) (sf : Width) (a b : Nat) (v : Word)
    (h : b < a ∨ a + sf.bytes ≤ b) : Memory.read (Memory.storeWidth m sf a v) b = Memory.read m b := by
  cases sf <;> simp only [Width.bytes] at h <;> simp only [Memory.storeWidth, Memory.store64, Memory.read_store32] <;>
    grind

/-- A copy leaves the bytes outside it alone. -/
theorem Memory.read_copy_outside (m : Memory) (a b : Nat) (bytes : List Byte) (h : b < a ∨ a + bytes.length ≤ b) :
    Memory.read (Memory.copy m a bytes) b = Memory.read m b := by
  induction bytes generalizing m a with
  | nil => rfl
  | cons byte rest ih =>
    simp only [List.length_cons] at h
    rw [Memory.copy, ih _ _ (by omega), Memory.read_write, if_neg (by omega)]

end Sys2Proof.Machine
end

