-- ==== Sys2Proof/Laws/Ops.lean ====
section
/-!
SUPPORT. One lemma per shared operation that says everything it can do: register writes as numbers, the bounds check, the
loads and stores and the way an instruction ends.
-/

namespace Sys2Proof

theorem Width.bits_pos (sf : Width) : 0 < sf.bits := by
  cases sf <;> decide

theorem Width.bits_le (sf : Width) : sf.bits ≤ 64 := by
  cases sf <;> decide

end Sys2Proof

namespace Sys2Proof.Machine

/-! ### Register writes as numbers -/

theorem setX_regResult (s : State) (rd : RegIdx) (v : Word) : (s.setX rd v).x rd = regResult rd v.toNat := by
  simp [State.setX_x_self, regResult]

theorem writeW_regResult (s : State) (sf : Width) (rd : RegIdx) (v : BitVec sf.bits) :
    (s.writeW sf rd v).x rd = regResult rd v.toNat := by
  rw [State.writeW, State.setX_x_self, regResult, BitVec.ofNat_toNat]

/-! ### Frames of the updates -/

theorem setX_keepsRegsBut (s : State) (rd : RegIdx) (v : Word) : KeepsRegsBut [rd] s (s.setX rd v) := by
  intro j hj
  exact State.setX_x_of_ne s v (by simpa using hj)

theorem writeW_keepsRegsBut (s : State) (sf : Width) (rd : RegIdx) (v : BitVec sf.bits) :
    KeepsRegsBut [rd] s (s.writeW sf rd v) :=
  setX_keepsRegsBut s rd _

theorem storeWidth_keepsMemBut (s : State) (sf : Width) (a : Nat) (v : Word) :
    KeepsMemBut a sf.bytes s (s.setMem (Memory.storeWidth s.mem sf a v)) :=
  fun b hb => Memory.read_storeWidth_outside s.mem sf a b v hb

/-! ### How an instruction ends -/

theorem finish_eq_next {r : Except Fault State} {t : State} :
    finish r = .next t ↔ ∃ s, r = .ok s ∧ t = s.advance := by
  cases r <;> simp [finish, raise, eq_comm]

theorem finish_eq_fault {r : Except Fault State} {e : Fault} : finish r = .fault e ↔ r = .error e := by
  cases r <;> simp [finish, raise]

theorem finish_ne_refused {r : Except Fault State} {q : Refusal} : finish r ≠ .refused q := by
  cases r <;> simp [finish, raise]

/-! ### Loads and stores -/

theorem checkBounds_ok {s : State} {sf : Width} {addr : Word} (h : addr.toNat + sf.bytes ≤ Config.memSize) :
    checkBounds s sf addr = .ok () := by
  simp [checkBounds, h]

theorem checkBounds_error {s : State} {sf : Width} {addr : Word} (h : Config.memSize < addr.toNat + sf.bytes) :
    checkBounds s sf addr = .error (.boundsError addr.toNat sf.bytes s.pc) := by
  simp [checkBounds, h]

/-- A load reads the bytes of its address when they are in range, and else gives BoundsError. -/
theorem loadValue_eq (s : State) (sf : Width) (addr : Word) :
    loadValue s sf addr =
      if addr.toNat + sf.bytes ≤ Config.memSize then .ok (Memory.loadWidth s.mem sf addr.toNat)
      else .error (.boundsError addr.toNat sf.bytes s.pc) := by
  split
  · simp [loadValue, checkBounds_ok ‹_›]
  · simp [loadValue, checkBounds_error (Nat.lt_of_not_le ‹_›)]

/-- A load into a register: the loaded bytes, or BoundsError. -/
theorem loadInto_eq (s : State) (sf : Width) (addr : Word) (rt : RegIdx) :
    loadInto s sf addr rt =
      if addr.toNat + sf.bytes ≤ Config.memSize then .ok (s.setX rt (Memory.loadWidth s.mem sf addr.toNat))
      else .error (.boundsError addr.toNat sf.bytes s.pc) := by
  rw [loadInto, loadValue_eq]
  by_cases h : addr.toNat + sf.bytes ≤ Config.memSize <;> simp [h]

/-- A store writes the bytes of its address when they are in range, and else gives BoundsError. -/
theorem storeValue_eq (s : State) (sf : Width) (addr v : Word) :
    storeValue s sf addr v =
      if addr.toNat + sf.bytes ≤ Config.memSize then .ok (s.setMem (Memory.storeWidth s.mem sf addr.toNat v))
      else .error (.boundsError addr.toNat sf.bytes s.pc) := by
  split
  · simp [storeValue, checkBounds_ok ‹_›]
  · simp [storeValue, checkBounds_error (Nat.lt_of_not_le ‹_›)]

/-! ### The count of draws on overlap -/

theorem isOverlap_iff {xn rt : RegIdx} : isOverlap xn rt = true ↔ rt = xn ∧ rt ≠ 31#5 := by
  simp [isOverlap]

@[simp] theorem afterOverlap_pc (s : State) (xn rt : RegIdx) : (afterOverlap s xn rt).pc = s.pc := by
  unfold afterOverlap; split <;> rfl
@[simp] theorem afterOverlap_flags (s : State) (xn rt : RegIdx) : (afterOverlap s xn rt).flags = s.flags := by
  unfold afterOverlap; split <;> rfl
@[simp] theorem afterOverlap_mem (s : State) (xn rt : RegIdx) : (afterOverlap s xn rt).mem = s.mem := by
  unfold afterOverlap; split <;> rfl
@[simp] theorem afterOverlap_status (s : State) (xn rt : RegIdx) : (afterOverlap s xn rt).status = s.status := by
  unfold afterOverlap; split <;> rfl
@[simp] theorem afterOverlap_sp (s : State) (xn rt : RegIdx) : (afterOverlap s xn rt).sp = s.sp := by
  unfold afterOverlap; split <;> rfl
@[simp] theorem afterOverlap_params (s : State) (xn rt : RegIdx) : (afterOverlap s xn rt).params = s.params := by
  unfold afterOverlap; split <;> rfl
@[simp] theorem afterOverlap_x (s : State) (xn rt j : RegIdx) : (afterOverlap s xn rt).x j = s.x j := by
  unfold afterOverlap; split <;> rfl
theorem afterOverlap_draws (s : State) (xn rt : RegIdx) :
    (afterOverlap s xn rt).draws = s.draws + (if rt = xn ∧ rt ≠ 31#5 then 1 else 0) := by
  by_cases h : isOverlap xn rt = true
  · rw [afterOverlap, if_pos h, if_pos (isOverlap_iff.mp h)]; rfl
  · rw [afterOverlap, if_neg h, if_neg fun c => h (isOverlap_iff.mpr c)]; rfl

/-- The spec's condition for an oversize shift (R201). -/
theorem isOversize_iff {sf : Width} {shift : ShiftType} {operand : BitVec 6} :
    isOversize sf shift operand = true ↔ sf = .w32 ∧ shift ≠ .ror ∧ 32 ≤ operand.toNat := by
  have : operand.toNat < 64 := operand.isLt
  rw [isOversize, Bool.and_eq_true, decide_eq_true_iff, bne_iff_ne]
  cases sf
  · simpa [Width.bits] using And.comm
  · simp only [Width.bits, reduceCtorEq, false_and, iff_false]; omega

theorem afterShift_shiftDraws (s : State) (sf : Width) (shift : ShiftType) (operand : BitVec 6) :
    (afterShift s sf shift operand).draws = s.draws + shiftDraws sf shift operand := by
  simp only [afterShift_draws, shiftDraws, isOversize_iff]

end Sys2Proof.Machine
end

