-- ==== Sys2Proof/Laws/PerInstr.lean ====
section
/-!
SUPPORT. The per-instruction family `OpcodeRow`: the word of every instruction matches its row of
spec/opcode_table.json.
One lemma per encoding format, and one per constructor.
-/

namespace Sys2Proof.Laws.OpcodeRow

/-- The encoded word of the instruction has the fixed bits of its row (R104 to R118, R141). -/
def Statement (i : Instr) : Prop :=
  (opcodeRow i).matchesWord (encode i) = true

/-! ### One lemma per format: the word under the mask is the fixed bits -/

theorem immArith_row (op : BitVec 2) (sf : Width) (sh : Bool) (imm12 : BitVec 12) (rn rd : RegIdx) (v : InstrWord)
    (hv : (0#1 ++ op ++ 0b100010#6 ++ 0#1 ++ 0#12 ++ 0#5 ++ 0#5 : BitVec 32) = v) :
    (OpcodeRow.mk v 0x7F800000#32).matchesWord (encodeImmArith op sf sh imm12 rn rd) = true := by
  have h : ∀ (a : BitVec 1) (b : BitVec 2) (c : BitVec 6) (d : BitVec 1) (e : BitVec 12) (f : BitVec 5)
    (g : BitVec 5),
      ((a ++ b ++ c ++ d ++ e ++ f ++ g) &&&
        (0#1 ++ BitVec.allOnes 2 ++ BitVec.allOnes 6 ++ 0#1 ++ 0#12 ++ 0#5 ++ 0#5)) =
      0#1 ++ b ++ c ++ 0#1 ++ 0#12 ++ 0#5 ++ 0#5 := by
    intros; simp only [BitVec.and_append, BitVec.and_allOnes, BitVec.and_zero]
  exact beq_iff_eq.mpr ((h _ _ _ _ _ _ _).trans hv)

theorem immWide_row (opc : BitVec 2) (sf : Width) (hw : BitVec 2) (imm16 : BitVec 16) (rd : RegIdx) (v : InstrWord)
    (hv : (0#1 ++ opc ++ 0b100101#6 ++ 0#2 ++ 0#16 ++ 0#5 : BitVec 32) = v) :
    (OpcodeRow.mk v 0x7F800000#32).matchesWord (encodeImmWide opc sf hw imm16 rd) = true := by
  have h : ∀ (a : BitVec 1) (b : BitVec 2) (c : BitVec 6) (d : BitVec 2) (e : BitVec 16) (f : BitVec 5),
      ((a ++ b ++ c ++ d ++ e ++ f) &&&
        (0#1 ++ BitVec.allOnes 2 ++ BitVec.allOnes 6 ++ 0#2 ++ 0#16 ++ 0#5)) =
      0#1 ++ b ++ c ++ 0#2 ++ 0#16 ++ 0#5 := by
    intros; simp only [BitVec.and_append, BitVec.and_allOnes, BitVec.and_zero]
  exact beq_iff_eq.mpr ((h _ _ _ _ _ _).trans hv)

theorem shifted_row (op : BitVec 2) (arith inv : BitVec 1) (sf : Width) (shift : ShiftType) (rm : RegIdx)
    (operand : BitVec 6) (rn rd : RegIdx) (v : InstrWord)
    (hv : (0#1 ++ op ++ 0b0101#4 ++ arith ++ 0#2 ++ inv ++ 0#5 ++ 0#6 ++ 0#5 ++ 0#5 : BitVec 32) = v) :
    (OpcodeRow.mk v 0x7F200000#32).matchesWord (encodeShifted op arith inv sf shift rm operand rn rd) = true := by
  have h : ∀ (a : BitVec 1) (b : BitVec 2) (c : BitVec 4) (d : BitVec 1) (e : BitVec 2) (f : BitVec 1)
    (g : BitVec 5) (h : BitVec 6) (i : BitVec 5) (j : BitVec 5),
      ((a ++ b ++ c ++ d ++ e ++ f ++ g ++ h ++ i ++ j) &&&
        (0#1 ++ BitVec.allOnes 2 ++ BitVec.allOnes 4 ++ BitVec.allOnes 1 ++ 0#2 ++ BitVec.allOnes 1 ++ 0#5 ++
          0#6 ++ 0#5 ++ 0#5)) =
      0#1 ++ b ++ c ++ d ++ 0#2 ++ f ++ 0#5 ++ 0#6 ++ 0#5 ++ 0#5 := by
    intros; simp only [BitVec.and_append, BitVec.and_allOnes, BitVec.and_zero]
  exact beq_iff_eq.mpr ((h _ _ _ _ _ _ _ _ _ _).trans hv)

theorem multiply_row (o0 : BitVec 1) (sf : Width) (rm ra rn rd : RegIdx) (v : InstrWord)
    (hv : (0#1 ++ 0b0011011000#10 ++ 0#5 ++ o0 ++ 0#5 ++ 0#5 ++ 0#5 : BitVec 32) = v) :
    (OpcodeRow.mk v 0x7FE08000#32).matchesWord (encodeMultiply o0 sf rm ra rn rd) = true := by
  have h : ∀ (a : BitVec 1) (b : BitVec 10) (c : BitVec 5) (d : BitVec 1) (e : BitVec 5) (f : BitVec 5)
    (g : BitVec 5),
      ((a ++ b ++ c ++ d ++ e ++ f ++ g) &&&
        (0#1 ++ BitVec.allOnes 10 ++ 0#5 ++ BitVec.allOnes 1 ++ 0#5 ++ 0#5 ++ 0#5)) =
      0#1 ++ b ++ 0#5 ++ d ++ 0#5 ++ 0#5 ++ 0#5 := by
    intros; simp only [BitVec.and_append, BitVec.and_allOnes, BitVec.and_zero]
  exact beq_iff_eq.mpr ((h _ _ _ _ _ _ _).trans hv)

theorem immOffset_row (load : BitVec 1) (sf : Width) (imm12 : BitVec 12) (xn rt : RegIdx) (v : InstrWord)
    (hv : (1#1 ++ 0#1 ++ 0b1110010#7 ++ load ++ 0#12 ++ 0#5 ++ 0#5 : BitVec 32) = v) :
    (OpcodeRow.mk v 0xBFC00000#32).matchesWord (encodeImmOffset load sf imm12 xn rt) = true := by
  have h : ∀ (a : BitVec 1) (b : BitVec 1) (c : BitVec 7) (d : BitVec 1) (e : BitVec 12) (f : BitVec 5)
    (g : BitVec 5),
      ((a ++ b ++ c ++ d ++ e ++ f ++ g) &&&
        (BitVec.allOnes 1 ++ 0#1 ++ BitVec.allOnes 7 ++ BitVec.allOnes 1 ++ 0#12 ++ 0#5 ++ 0#5)) =
      a ++ 0#1 ++ c ++ d ++ 0#12 ++ 0#5 ++ 0#5 := by
    intros; simp only [BitVec.and_append, BitVec.and_allOnes, BitVec.and_zero]
  exact beq_iff_eq.mpr ((h _ _ _ _ _ _ _).trans hv)

theorem regOffset_row (load : BitVec 1) (sf : Width) (xm xn rt : RegIdx) (v : InstrWord)
    (hv : (1#1 ++ 0#1 ++ 0b1110000#7 ++ load ++ 1#1 ++ 0#5 ++ 0b011010#6 ++ 0#5 ++ 0#5 : BitVec 32) = v) :
    (OpcodeRow.mk v 0xBFE0FC00#32).matchesWord (encodeRegOffset load sf xm xn rt) = true := by
  have h : ∀ (a : BitVec 1) (b : BitVec 1) (c : BitVec 7) (d : BitVec 1) (e : BitVec 1) (f : BitVec 5)
    (g : BitVec 6) (h : BitVec 5) (i : BitVec 5),
      ((a ++ b ++ c ++ d ++ e ++ f ++ g ++ h ++ i) &&&
        (BitVec.allOnes 1 ++ 0#1 ++ BitVec.allOnes 7 ++ BitVec.allOnes 1 ++ BitVec.allOnes 1 ++ 0#5 ++
          BitVec.allOnes 6 ++ 0#5 ++ 0#5)) =
      a ++ 0#1 ++ c ++ d ++ e ++ 0#5 ++ g ++ 0#5 ++ 0#5 := by
    intros; simp only [BitVec.and_append, BitVec.and_allOnes, BitVec.and_zero]
  exact beq_iff_eq.mpr ((h _ _ _ _ _ _ _ _ _).trans hv)

theorem prePost_row (load pre : BitVec 1) (sf : Width) (simm9 : BitVec 9) (xn rt : RegIdx) (v : InstrWord)
    (hv : (1#1 ++ 0#1 ++ 0b1110000#7 ++ load ++ 0#1 ++ 0#9 ++ pre ++ 1#1 ++ 0#5 ++ 0#5 : BitVec 32) = v) :
    (OpcodeRow.mk v 0xBFE00C00#32).matchesWord (encodePrePost load pre sf simm9 xn rt) = true := by
  have h : ∀ (a : BitVec 1) (b : BitVec 1) (c : BitVec 7) (d : BitVec 1) (e : BitVec 1) (f : BitVec 9)
    (g : BitVec 1) (h : BitVec 1) (i : BitVec 5) (j : BitVec 5),
      ((a ++ b ++ c ++ d ++ e ++ f ++ g ++ h ++ i ++ j) &&&
        (BitVec.allOnes 1 ++ 0#1 ++ BitVec.allOnes 7 ++ BitVec.allOnes 1 ++ BitVec.allOnes 1 ++ 0#9 ++
          BitVec.allOnes 1 ++ BitVec.allOnes 1 ++ 0#5 ++ 0#5)) =
      a ++ 0#1 ++ c ++ d ++ e ++ 0#9 ++ g ++ h ++ 0#5 ++ 0#5 := by
    intros; simp only [BitVec.and_append, BitVec.and_allOnes, BitVec.and_zero]
  exact beq_iff_eq.mpr ((h _ _ _ _ _ _ _ _ _ _).trans hv)

theorem loadLiteral_row (sf : Width) (simm19 : BitVec 19) (rt : RegIdx) (v : InstrWord)
    (hv : (0#1 ++ 0#1 ++ 0b011000#6 ++ 0#19 ++ 0#5 : BitVec 32) = v) :
    (OpcodeRow.mk v 0xBF000000#32).matchesWord (encodeLoadLiteral sf simm19 rt) = true := by
  have h : ∀ (a : BitVec 1) (b : BitVec 1) (c : BitVec 6) (d : BitVec 19) (e : BitVec 5),
      ((a ++ b ++ c ++ d ++ e) &&&
        (BitVec.allOnes 1 ++ 0#1 ++ BitVec.allOnes 6 ++ 0#19 ++ 0#5)) =
      a ++ 0#1 ++ c ++ 0#19 ++ 0#5 := by
    intros; simp only [BitVec.and_append, BitVec.and_allOnes, BitVec.and_zero]
  exact beq_iff_eq.mpr ((h _ _ _ _ _).trans hv)

theorem branch_row (simm26 : BitVec 26) (v : InstrWord)
    (hv : (0b000101#6 ++ 0#26 : BitVec 32) = v) :
    (OpcodeRow.mk v 0xFC000000#32).matchesWord (encodeBranch simm26) = true := by
  have h : ∀ (a : BitVec 6) (b : BitVec 26),
      ((a ++ b) &&&
        (BitVec.allOnes 6 ++ 0#26)) =
      a ++ 0#26 := by
    intros; simp only [BitVec.and_append, BitVec.and_allOnes, BitVec.and_zero]
  exact beq_iff_eq.mpr ((h _ _).trans hv)

theorem branchCond_row (cond : BitVec 4) (simm19 : BitVec 19) (v : InstrWord)
    (hv : (0b01010100#8 ++ 0#19 ++ 0#1 ++ cond : BitVec 32) = v) :
    (OpcodeRow.mk v 0xFF00001F#32).matchesWord (encodeBranchCond cond simm19) = true := by
  have h : ∀ (a : BitVec 8) (b : BitVec 19) (c : BitVec 1) (d : BitVec 4),
      ((a ++ b ++ c ++ d) &&&
        (BitVec.allOnes 8 ++ 0#19 ++ BitVec.allOnes 1 ++ BitVec.allOnes 4)) =
      a ++ 0#19 ++ c ++ d := by
    intros; simp only [BitVec.and_append, BitVec.and_allOnes, BitVec.and_zero]
  exact beq_iff_eq.mpr ((h _ _ _ _).trans hv)

theorem branchReg_row (xn : RegIdx) (v : InstrWord)
    (hv : (0b1101011000011111000000#22 ++ 0#5 ++ 0b00000#5 : BitVec 32) = v) :
    (OpcodeRow.mk v 0xFFFFFC1F#32).matchesWord (encodeBranchReg xn) = true := by
  have h : ∀ (a : BitVec 22) (b : BitVec 5) (c : BitVec 5),
      ((a ++ b ++ c) &&&
        (BitVec.allOnes 22 ++ 0#5 ++ BitVec.allOnes 5)) =
      a ++ 0#5 ++ c := by
    intros; simp only [BitVec.and_append, BitVec.and_allOnes, BitVec.and_zero]
  exact beq_iff_eq.mpr ((h _ _ _).trans hv)

/-! ### One lemma per constructor -/

theorem addImm (sf : Width) (sh : Bool) (imm12 : BitVec 12) (rn rd : RegIdx) :
    Statement (.addImm sf sh imm12 rn rd) :=
  immArith_row _ _ _ _ _ _ _ (by decide)

theorem addsImm (sf : Width) (sh : Bool) (imm12 : BitVec 12) (rn rd : RegIdx) :
    Statement (.addsImm sf sh imm12 rn rd) :=
  immArith_row _ _ _ _ _ _ _ (by decide)

theorem subImm (sf : Width) (sh : Bool) (imm12 : BitVec 12) (rn rd : RegIdx) :
    Statement (.subImm sf sh imm12 rn rd) :=
  immArith_row _ _ _ _ _ _ _ (by decide)

theorem subsImm (sf : Width) (sh : Bool) (imm12 : BitVec 12) (rn rd : RegIdx) :
    Statement (.subsImm sf sh imm12 rn rd) :=
  immArith_row _ _ _ _ _ _ _ (by decide)

theorem movn (sf : Width) (hw : BitVec 2) (imm16 : BitVec 16) (rd : RegIdx) : Statement (.movn sf hw imm16 rd) :=
  immWide_row _ _ _ _ _ _ (by decide)

theorem movz (sf : Width) (hw : BitVec 2) (imm16 : BitVec 16) (rd : RegIdx) : Statement (.movz sf hw imm16 rd) :=
  immWide_row _ _ _ _ _ _ (by decide)

theorem movk (sf : Width) (hw : BitVec 2) (imm16 : BitVec 16) (rd : RegIdx) : Statement (.movk sf hw imm16 rd) :=
  immWide_row _ _ _ _ _ _ (by decide)

theorem addReg (sf : Width) (shift : ShiftType) (rm : RegIdx) (operand : BitVec 6) (rn rd : RegIdx) :
    Statement (.addReg sf shift rm operand rn rd) :=
  shifted_row _ _ _ _ _ _ _ _ _ _ (by decide)

theorem addsReg (sf : Width) (shift : ShiftType) (rm : RegIdx) (operand : BitVec 6) (rn rd : RegIdx) :
    Statement (.addsReg sf shift rm operand rn rd) :=
  shifted_row _ _ _ _ _ _ _ _ _ _ (by decide)

theorem subReg (sf : Width) (shift : ShiftType) (rm : RegIdx) (operand : BitVec 6) (rn rd : RegIdx) :
    Statement (.subReg sf shift rm operand rn rd) :=
  shifted_row _ _ _ _ _ _ _ _ _ _ (by decide)

theorem subsReg (sf : Width) (shift : ShiftType) (rm : RegIdx) (operand : BitVec 6) (rn rd : RegIdx) :
    Statement (.subsReg sf shift rm operand rn rd) :=
  shifted_row _ _ _ _ _ _ _ _ _ _ (by decide)

theorem andReg (sf : Width) (shift : ShiftType) (rm : RegIdx) (operand : BitVec 6) (rn rd : RegIdx) :
    Statement (.andReg sf shift rm operand rn rd) :=
  shifted_row _ _ _ _ _ _ _ _ _ _ (by decide)

theorem bicReg (sf : Width) (shift : ShiftType) (rm : RegIdx) (operand : BitVec 6) (rn rd : RegIdx) :
    Statement (.bicReg sf shift rm operand rn rd) :=
  shifted_row _ _ _ _ _ _ _ _ _ _ (by decide)

theorem orrReg (sf : Width) (shift : ShiftType) (rm : RegIdx) (operand : BitVec 6) (rn rd : RegIdx) :
    Statement (.orrReg sf shift rm operand rn rd) :=
  shifted_row _ _ _ _ _ _ _ _ _ _ (by decide)

theorem ornReg (sf : Width) (shift : ShiftType) (rm : RegIdx) (operand : BitVec 6) (rn rd : RegIdx) :
    Statement (.ornReg sf shift rm operand rn rd) :=
  shifted_row _ _ _ _ _ _ _ _ _ _ (by decide)

theorem eorReg (sf : Width) (shift : ShiftType) (rm : RegIdx) (operand : BitVec 6) (rn rd : RegIdx) :
    Statement (.eorReg sf shift rm operand rn rd) :=
  shifted_row _ _ _ _ _ _ _ _ _ _ (by decide)

theorem eonReg (sf : Width) (shift : ShiftType) (rm : RegIdx) (operand : BitVec 6) (rn rd : RegIdx) :
    Statement (.eonReg sf shift rm operand rn rd) :=
  shifted_row _ _ _ _ _ _ _ _ _ _ (by decide)

theorem andsReg (sf : Width) (shift : ShiftType) (rm : RegIdx) (operand : BitVec 6) (rn rd : RegIdx) :
    Statement (.andsReg sf shift rm operand rn rd) :=
  shifted_row _ _ _ _ _ _ _ _ _ _ (by decide)

theorem bicsReg (sf : Width) (shift : ShiftType) (rm : RegIdx) (operand : BitVec 6) (rn rd : RegIdx) :
    Statement (.bicsReg sf shift rm operand rn rd) :=
  shifted_row _ _ _ _ _ _ _ _ _ _ (by decide)

theorem madd (sf : Width) (rm ra rn rd : RegIdx) : Statement (.madd sf rm ra rn rd) :=
  multiply_row _ _ _ _ _ _ _ (by decide)

theorem msub (sf : Width) (rm ra rn rd : RegIdx) : Statement (.msub sf rm ra rn rd) :=
  multiply_row _ _ _ _ _ _ _ (by decide)

theorem ldrImm (sf : Width) (imm12 : BitVec 12) (xn rt : RegIdx) : Statement (.ldrImm sf imm12 xn rt) :=
  immOffset_row _ _ _ _ _ _ (by decide)

theorem strImm (sf : Width) (imm12 : BitVec 12) (xn rt : RegIdx) : Statement (.strImm sf imm12 xn rt) :=
  immOffset_row _ _ _ _ _ _ (by decide)

theorem ldrReg (sf : Width) (xm xn rt : RegIdx) : Statement (.ldrReg sf xm xn rt) :=
  regOffset_row _ _ _ _ _ _ (by decide)

theorem strReg (sf : Width) (xm xn rt : RegIdx) : Statement (.strReg sf xm xn rt) :=
  regOffset_row _ _ _ _ _ _ (by decide)

theorem ldrPre (sf : Width) (simm9 : BitVec 9) (xn rt : RegIdx) : Statement (.ldrPre sf simm9 xn rt) :=
  prePost_row _ _ _ _ _ _ _ (by decide)

theorem strPre (sf : Width) (simm9 : BitVec 9) (xn rt : RegIdx) : Statement (.strPre sf simm9 xn rt) :=
  prePost_row _ _ _ _ _ _ _ (by decide)

theorem ldrPost (sf : Width) (simm9 : BitVec 9) (xn rt : RegIdx) : Statement (.ldrPost sf simm9 xn rt) :=
  prePost_row _ _ _ _ _ _ _ (by decide)

theorem strPost (sf : Width) (simm9 : BitVec 9) (xn rt : RegIdx) : Statement (.strPost sf simm9 xn rt) :=
  prePost_row _ _ _ _ _ _ _ (by decide)

theorem ldrLit (sf : Width) (simm19 : BitVec 19) (rt : RegIdx) : Statement (.ldrLit sf simm19 rt) :=
  loadLiteral_row _ _ _ _ (by decide)

theorem b (simm26 : BitVec 26) : Statement (.b simm26) :=
  branch_row _ _ (by decide)

theorem bEq (simm19 : BitVec 19) : Statement (.bEq simm19) :=
  branchCond_row _ _ _ (by decide)

theorem bNe (simm19 : BitVec 19) : Statement (.bNe simm19) :=
  branchCond_row _ _ _ (by decide)

theorem bGe (simm19 : BitVec 19) : Statement (.bGe simm19) :=
  branchCond_row _ _ _ (by decide)

theorem bLt (simm19 : BitVec 19) : Statement (.bLt simm19) :=
  branchCond_row _ _ _ (by decide)

theorem bGt (simm19 : BitVec 19) : Statement (.bGt simm19) :=
  branchCond_row _ _ _ (by decide)

theorem bLe (simm19 : BitVec 19) : Statement (.bLe simm19) :=
  branchCond_row _ _ _ (by decide)

theorem bAl (simm19 : BitVec 19) : Statement (.bAl simm19) :=
  branchCond_row _ _ _ (by decide)

theorem br (xn : RegIdx) : Statement (.br xn) :=
  branchReg_row _ _ (by decide)

theorem halt : Statement .halt :=
  (by decide : (opcodeRow .halt).matchesWord (encode .halt) = true)

end Sys2Proof.Laws.OpcodeRow
end

