-- ==== Sys2Proof/Tests/Slice0.lean ====
section
/-!
SUPPORT. Tests and witnesses. The words of the decode tests are written out from the spec's encodings
(30_encoding.md), field by
field; the words and results of the step tests are those of 95_test_vectors.md section 2, which its author computed
from the
rules. The witnesses meet the hypotheses of the obligations.
-/

namespace Sys2Proof.Tests

open Sys2Proof Sys2Proof.Machine

/-! ### Small states -/

/-- A reset state with some registers and the flags NZCV. -/
def st (regs : List (RegIdx × Word)) (nzcv : BitVec 4) : State :=
  (regs.foldl (fun s p => s.setX p.1 p.2) State.reset).setFlags (PState.ofNzcv nzcv)

/-- The same with the bytes `88 77 66 55 44 33 22 11` at 0x108 (95_test_vectors.md section 2.7). -/
def stMem (regs : List (RegIdx × Word)) : State :=
  (st regs 0).setMem (Memory.store64 [] 0x108 0x1122334455667788#64)

/-- One step of a state on a word placed where it fetches. -/
def run (w : Nat) (s : State) : Host.Outcome State Fault Refusal :=
  step (s.withFetchWord 32 w)

/-- The next state's register, pc and NZCV are these. -/
def ends (o : Host.Outcome State Fault Refusal) (rd : RegIdx) (v pc : Word) (nzcv : BitVec 4) : Bool :=
  match o with
  | .next t => t.x rd == v && t.pc == pc && t.flags == PState.ofNzcv nzcv
  | _ => false

/-- The next state's memory holds these bytes at an address, and the register this value. -/
def stores (o : Host.Outcome State Fault Refusal) (a : Nat) (bytes : List Byte) (r : RegIdx) (v : Word) : Bool :=
  match o with
  | .next t => (List.range bytes.length).map (fun k => Memory.read t.mem (a + k)) == bytes && t.x r == v && t.pc == 4
  | _ => false

/-- The next state's run status. -/
def statusOf (o : Host.Outcome State Fault Refusal) : Option RunStatus :=
  match o with
  | .next t => some t.status
  | _ => none

/-- The number of draws the next state has counted. -/
def drawsOf (o : Host.Outcome State Fault Refusal) : Option Nat :=
  match o with
  | .next t => some t.draws
  | _ => none

/-- The step stops with this error. -/
def faults (o : Host.Outcome State Fault Refusal) (e : Fault) : Bool :=
  match o with
  | .fault e' => e' == e
  | _ => false

/-- A reset state with `FETCH_ALIGN_FAULT` set, at a pc. -/
def alignSt (pc : Word) : State :=
  (State.resetWith { resetNzcv := 0, vFlagMode := .textbook, fetchAlignFault := true }).setPc pc

/-- The run status of the core a host operation leaves. -/
def statusAfter {α : Type} (r : HostResult α) : RunStatus :=
  match r with
  | .done _ s => s.status
  | .raised _ s => s.status

/-! ### WellFormed: an ill-formed term for its one check (R141) -/

theorem test_halt_spelling_is_refused : (Instr.andReg .w64 .lsl 0 0 0 0).wellFormed = false := by decide
theorem test_narrow_spelling_is_wellFormed : (Instr.andReg .w32 .lsl 0 0 0 0).wellFormed = true := by decide

/-! ### Decoding, one word for each constructor, its fields written out (R104 to R118, R127 to R132) -/

theorem test_decode_addImm :
    decodeWord 0b0_00_100010_0_000000000001_00001_00000#32 = .ok (.addImm .w32 false 1 1 0) := by decide
theorem test_decode_addsImm :
    decodeWord 0b1_01_100010_0_000000000001_00001_11111#32 = .ok (.addsImm .w64 false 1 1 31) := by decide
theorem test_decode_subImm :
    decodeWord 0b1_10_100010_1_000000000001_00001_00000#32 = .ok (.subImm .w64 true 1 1 0) := by decide
theorem test_decode_subsImm :
    decodeWord 0b1_11_100010_0_000000000101_00001_00010#32 = .ok (.subsImm .w64 false 5 1 2) := by decide
theorem test_decode_movn : decodeWord 0b0_00_100101_11_0000000000000001_00000#32 = .ok (.movn .w32 3 1 0) := by decide
theorem test_decode_movz :
    decodeWord 0b1_10_100101_11_1011111011101111_00010#32 = .ok (.movz .w64 3 0xBEEF 2) := by decide
theorem test_decode_movk :
    decodeWord 0b1_11_100101_01_1010101111001101_00000#32 = .ok (.movk .w64 1 0xABCD 0) := by decide
theorem test_decode_addReg :
    decodeWord 0b1_00_01011_11_0_00010_001000_00001_00000#32 = .ok (.addReg .w64 .ror 2 8 1 0) := by decide
theorem test_decode_addsReg :
    decodeWord 0b0_01_01011_10_0_00010_011111_00001_00000#32 = .ok (.addsReg .w32 .asr 2 31 1 0) := by decide
theorem test_decode_subReg :
    decodeWord 0b1_10_01011_01_0_00010_000010_00001_00000#32 = .ok (.subReg .w64 .lsr 2 2 1 0) := by decide
theorem test_decode_subsReg :
    decodeWord 0b0_11_01011_00_0_00001_000000_00000_11111#32 = .ok (.subsReg .w32 .lsl 1 0 0 31) := by decide
theorem test_decode_andReg :
    decodeWord 0b1_00_01010_00_0_00010_000000_00001_00000#32 = .ok (.andReg .w64 .lsl 2 0 1 0) := by decide
theorem test_decode_bicReg :
    decodeWord 0b1_00_01010_00_1_00010_000000_00001_00000#32 = .ok (.bicReg .w64 .lsl 2 0 1 0) := by decide
theorem test_decode_orrReg :
    decodeWord 0b1_01_01010_00_0_00010_001000_00001_00000#32 = .ok (.orrReg .w64 .lsl 2 8 1 0) := by decide
theorem test_decode_ornReg :
    decodeWord 0b1_01_01010_00_1_00001_000000_11111_00000#32 = .ok (.ornReg .w64 .lsl 1 0 31 0) := by decide
theorem test_decode_eorReg :
    decodeWord 0b0_10_01010_11_0_00010_000100_00001_00000#32 = .ok (.eorReg .w32 .ror 2 4 1 0) := by decide
theorem test_decode_eonReg :
    decodeWord 0b1_10_01010_00_1_00010_000000_00001_00000#32 = .ok (.eonReg .w64 .lsl 2 0 1 0) := by decide
theorem test_decode_andsReg :
    decodeWord 0b0_11_01010_00_0_00010_000000_00001_00000#32 = .ok (.andsReg .w32 .lsl 2 0 1 0) := by decide
theorem test_decode_bicsReg :
    decodeWord 0b1_11_01010_01_1_00010_000001_00001_00000#32 = .ok (.bicsReg .w64 .lsr 2 1 1 0) := by decide
theorem test_decode_madd :
    decodeWord 0b1_0011011000_00010_0_00011_00001_00000#32 = .ok (.madd .w64 2 3 1 0) := by decide
theorem test_decode_msub :
    decodeWord 0b0_0011011000_00010_1_00011_00001_00000#32 = .ok (.msub .w32 2 3 1 0) := by decide
theorem test_decode_ldrImm :
    decodeWord 0b1_1_1110010_1_000000000001_00001_00000#32 = .ok (.ldrImm .w64 1 1 0) := by decide
theorem test_decode_strImm :
    decodeWord 0b1_0_1110010_0_000000000000_00001_00010#32 = .ok (.strImm .w32 0 1 2) := by decide
theorem test_decode_ldrReg :
    decodeWord 0b1_1_1110000_1_1_00010_011010_00001_00000#32 = .ok (.ldrReg .w64 2 1 0) := by decide
theorem test_decode_strReg :
    decodeWord 0b1_0_1110000_0_1_00010_011010_00001_00000#32 = .ok (.strReg .w32 2 1 0) := by decide
theorem test_decode_ldrPre :
    decodeWord 0b1_0_1110000_1_0_111111000_11_00001_00000#32 = .ok (.ldrPre .w32 0x1F8 1 0) := by decide
theorem test_decode_strPre :
    decodeWord 0b1_1_1110000_0_0_000001000_11_00001_00000#32 = .ok (.strPre .w64 8 1 0) := by decide
theorem test_decode_ldrPost :
    decodeWord 0b1_1_1110000_1_0_111111000_01_00001_00000#32 = .ok (.ldrPost .w64 0x1F8 1 0) := by decide
theorem test_decode_strPost :
    decodeWord 0b1_0_1110000_0_0_000000100_01_00001_00010#32 = .ok (.strPost .w32 4 1 2) := by decide
theorem test_decode_ldrLit :
    decodeWord 0b0_1_011000_0000000000000000010_00000#32 = .ok (.ldrLit .w64 2 0) := by decide
theorem test_decode_b : decodeWord 0b000101_11111111111111111111111110#32 = .ok (.b 0x3FFFFFE) := by decide
theorem test_decode_bEq : decodeWord 0b01010100_1111111111111111110_0_0000#32 = .ok (.bEq 0x7FFFE) := by decide
theorem test_decode_bNe : decodeWord 0b01010100_1111111111111111110_0_0001#32 = .ok (.bNe 0x7FFFE) := by decide
theorem test_decode_bGe : decodeWord 0b01010100_0000000000000000010_0_1010#32 = .ok (.bGe 2) := by decide
theorem test_decode_bLt : decodeWord 0b01010100_0000000000000000010_0_1011#32 = .ok (.bLt 2) := by decide
theorem test_decode_bGt : decodeWord 0b01010100_0000000000000000010_0_1100#32 = .ok (.bGt 2) := by decide
theorem test_decode_bLe : decodeWord 0b01010100_0000000000000000010_0_1101#32 = .ok (.bLe 2) := by decide
theorem test_decode_bAl : decodeWord 0b01010100_0000000000000000010_0_1110#32 = .ok (.bAl 2) := by decide
theorem test_decode_br : decodeWord 0b1101011_0000_11111_000000_00011_00000#32 = .ok (.br 3) := by decide
theorem test_decode_halt : decodeWord 0b1_00_01010_00_0_00000_000000_00000_00000#32 = .ok (.halt) := by decide


/-- The words of 95_test_vectors.md section 2.9, `ImmWide opc = 01` and RegMultiply with `w[30:29] = 01`: all
rejected. -/
theorem test_decode_rejects :
    [0x00000000#32, 0xD503201F#32, 0x54000003#32, 0x5400000F#32, 0x54000010#32, 0xD63F0060#32, 0xD65F03C0#32,
    0x94000002#32,
      0xB8400820#32, 0x9AC20820#32, 0x38400C20#32, 0xB2800020#32, 0xBB020C20#32].all
      (fun w => (decodeWord w).toOption == none) = true := by decide

/-- Bytes are read least significant first, and the bytes after the instruction are left (R63, R100). -/
theorem test_decodeBytes : decodeBytes [0x20#8, 0x04#8, 0x00#8, 0x91#8, 0xFF#8] =
    .ok (.addImm .w64 false 1 1 0, [0xFF#8]) := by decide
theorem test_decodeBytes_truncated : decodeBytes [0x20#8, 0x04#8, 0x00#8] = .error .truncated := by decide
theorem test_decodeTableWord : decodeTableWord 32 0xD28000A0 = some (.movz .w64 0 5 0) := by decide

/-! ### One step (95_test_vectors.md section 2) -/

theorem test_add_imm_32_bit_carry_is_lost :
    ends (run 0x11000420 (st [(1, 0xffffffffffffffff)] 0)) 0 0x0 4 0 = true := by decide
theorem test_add_imm_shifted_by_12 : ends (run 0x917ffc20 (st [(1, 0x1)] 0)) 0 0xfff001 4 0 = true := by decide
theorem test_adds_imm_overflow :
    ends (run 0xb1000420 (st [(1, 0x7fffffffffffffff)] 0)) 0 0x8000000000000000 4 9 = true := by decide
theorem test_adds_imm_discarded_still_sets_flags :
    ends (run 0xb100043f (st [(1, 0xffffffffffffffff)] 0)) 31 0x0 4 6 = true := by decide
theorem test_sub_imm_borrow : ends (run 0x510007e0 (st [] 0)) 0 0xffffffff 4 0 = true := by decide
theorem test_sub_imm_shifted_by_12 : ends (run 0xd1400420 (st [(1, 0x2000)] 0)) 0 0x1000 4 0 = true := by decide
theorem test_subs_imm_to_zero : ends (run 0xf1001421 (st [(1, 0x5)] 0)) 1 0x0 4 6 = true := by decide
theorem test_subs_imm_overflow :
    ends (run 0xf1000420 (st [(1, 0x8000000000000000)] 0)) 0 0x7fffffffffffffff 4 3 = true := by decide
theorem test_movn_shifted : ends (run 0x92a00020 (st [] 0)) 0 0xfffffffffffeffff 4 0 = true := by decide
theorem test_movn_32_bit_hw_3 : ends (run 0x12e00020 (st [] 0)) 0 0xffffffff 4 0 = true := by decide
theorem test_movz_clears_the_rest :
    ends (run 0x52bfffe0 (st [(0, 0xffffffffffffffff)] 0)) 0 0xffff0000 4 0 = true := by decide
theorem test_movz_32_bit_hw_2 : ends (run 0x52c00020 (st [(0, 0x7)] 0)) 0 0x0 4 0 = true := by decide
theorem test_movk_keeps_the_rest :
    ends (run 0xf2b579a0 (st [(0, 0x1111222233334444)] 0)) 0 0x11112222abcd4444 4 0 = true := by decide
theorem test_movk_32_bit_hw_2 :
    ends (run 0x72c00020 (st [(0, 0x1111222233334444)] 0)) 0 0x33334444 4 0 = true := by decide
theorem test_add_reg_shifted : ends (run 0x8b021020 (st [(1, 0x1), (2, 0x2)] 0)) 0 0x21 4 0 = true := by decide
theorem test_add_reg_ror : ends (run 0x8bc22020 (st [(2, 0xff)] 0)) 0 0xff00000000000000 4 0 = true := by decide
theorem test_adds_reg_carry :
    ends (run 0xab020020 (st [(1, 0xffffffffffffffff), (2, 0x1)] 0)) 0 0x0 4 6 = true := by decide
theorem test_adds_reg_asr_32_bit :
    ends (run 0x2b827c20 (st [(1, 0x1), (2, 0x80000000)] 0)) 0 0x0 4 6 = true := by decide
theorem test_sub_reg_lsr : ends (run 0xcb420820 (st [(1, 0x10), (2, 0x40)] 0)) 0 0x0 4 0 = true := by decide
theorem test_sub_reg_neg_32_bit : ends (run 0x4b0103e0 (st [(1, 0x1)] 0)) 0 0xffffffff 4 0 = true := by decide
theorem test_subs_reg_cmp_borrow : ends (run 0xeb01001f (st [(0, 0x3), (1, 0x5)] 0)) 31 0x0 4 8 = true := by decide
theorem test_subs_reg_cmp_32_bit_overflow :
    ends (run 0x6b01001f (st [(0, 0x80000000), (1, 0x1)] 0)) 31 0x0 4 3 = true := by decide
theorem test_and_reg : ends (run 0x8a020020 (st [(1, 0xff00), (2, 0xff0)] 0)) 0 0xf00 4 0 = true := by decide
theorem test_and_reg_32_bit_x0_is_no_halt :
    ends (run 0x0a000000 (st [(0, 0xffffffff00000001)] 0)) 0 0x1 4 0 = true := by decide
theorem test_bic_reg : ends (run 0x8a220020 (st [(1, 0xff00), (2, 0xff0)] 0)) 0 0xf000 4 0 = true := by decide
theorem test_orr_reg_asr :
    ends (run 0xaa8113e0 (st [(1, 0xf000000000000000)] 0)) 0 0xff00000000000000 4 0 = true := by decide
theorem test_orr_reg_ror_above_32 :
    ends (run 0x2ac193e0 (st [(1, 0x12345678)] 0)) 0 0x81234567 4 0 = true := by decide
theorem test_orn_reg_32_bit : ends (run 0x2a3f03e0 (st [] 0)) 0 0xffffffff 4 0 = true := by decide
theorem test_eor_reg_ror :
    ends (run 0x4ac21020 (st [(1, 0x12345678), (2, 0xf)] 0)) 0 0xe2345678 4 0 = true := by decide
theorem test_eon_reg : ends (run 0xca220020 (st [(1, 0x5), (2, 0x5)] 0)) 0 0xffffffffffffffff 4 0 = true := by decide
theorem test_ands_reg_clears_c_and_v :
    ends (run 0xea020020 (st [(1, 0xf0), (2, 0xf)] 15)) 0 0x0 4 4 = true := by decide
theorem test_ands_reg_32_bit :
    ends (run 0x6a020020 (st [(1, 0x80000000), (2, 0xffffffff)] 3)) 0 0x80000000 4 8 = true := by decide
theorem test_bics_reg_zero : ends (run 0xea210020 (st [(1, 0x7)] 3)) 0 0x0 4 4 = true := by decide
theorem test_bics_reg_lsr :
    ends (run 0xea620420 (st [(1, 0xffffffffffffffff), (2, 0x2)] 0)) 0 0xfffffffffffffffe 4 8 = true := by decide
theorem test_madd : ends (run 0x9b020c20 (st [(1, 0x3), (2, 0x4), (3, 0x5)] 0)) 0 0x11 4 0 = true := by decide
theorem test_madd_32_bit_reads_low_halves :
    ends (run 0x1b027c20 (st [(1, 0xffffffff00000003), (2, 0x7)] 0)) 0 0x15 4 0 = true := by decide
theorem test_msub :
    ends (run 0x9b028c20 (st [(1, 0x3), (2, 0x4), (3, 0x5)] 0)) 0 0xfffffffffffffff9 4 0 = true := by decide
theorem test_msub_zero_accumulator :
    ends (run 0x9b02fc20 (st [(1, 0x3), (2, 0x4)] 0)) 0 0xfffffffffffffff4 4 0 = true := by decide
theorem test_ldr_imm_scaled : ends (run 0xb9400820 (stMem [(1, 0x100)])) 0 0x55667788 4 0 = true := by decide
theorem test_ldr_imm_unaligned : ends (run 0xf9400020 (stMem [(1, 0x109)])) 0 0x11223344556677 4 0 = true := by decide
theorem test_ldr_reg_negative_offset :
    ends (run 0xb8626820 (stMem [(1, 0x110), (2, 0xfffffffffffffff8)])) 0 0x55667788 4 0 = true := by decide
theorem test_ldr_pre_negative_offset : ends (run 0xb85f8c20 (stMem [(1, 0x110)])) 1 0x108 4 0 = true := by decide
theorem test_ldr_pre_same_register :
    ends (run 0xf8408c21 (stMem [(1, 0x100)])) 1 0x1122334455667788 4 0 = true := by decide
theorem test_ldr_post : ends (run 0xf85f8420 (stMem [(1, 0x108)])) 0 0x1122334455667788 4 0 = true := by decide
theorem test_ldr_post_writes_back : ends (run 0xf85f8420 (stMem [(1, 0x108)])) 1 0x100 4 0 = true := by decide
theorem test_ldr_lit :
    ends (run 0x58000040 ((st [] 0).setMem (Memory.store32 [] 8 0xDEADBEEF#32))) 0 0xDEADBEEF 4 0 = true := by decide
theorem test_ldr_lit_negative :
    ends (run 0x18FFFFE0 (((st [] 0).setMem (Memory.store32 [] 12 0x12345678#32)).setPc 0x10)) 0 0x12345678 0x14 0 =
    true := by
  decide
theorem test_str_imm_32_bit :
    stores (run 0xb9000022 (st [(1, 0x100), (2, 0xaabbccdd11223344)] 0)) 0x100
      [0x44#8, 0x33#8, 0x22#8, 0x11#8, 0x00#8] 1 0x100 = true := by decide
theorem test_str_imm_64_bit :
    stores (run 0xf9000422 (st [(1, 0x103), (2, 0xaabbccdd11223344)] 0)) 0x10b
      [0x44#8, 0x33#8, 0x22#8, 0x11#8, 0xDD#8, 0xCC#8, 0xBB#8, 0xAA#8] 1 0x103 = true := by decide
theorem test_str_reg :
    stores (run 0xf8226820 (st [(0, 0x42), (1, 0x100), (2, 0x10)] 0)) 0x110
      [0x42#8, 0x00#8, 0x00#8, 0x00#8, 0x00#8, 0x00#8, 0x00#8, 0x00#8] 1 0x100 = true := by decide
theorem test_str_pre :
    stores (run 0xb80ffc20 (st [(0, 0xaabbccdd), (1, 0x100)] 0)) 0x1ff
      [0xDD#8, 0xCC#8, 0xBB#8, 0xAA#8, 0x00#8] 1 0x1ff = true := by decide
theorem test_str_post_32_bit_stores_four_bytes :
    stores (run 0xb8004422 (st [(1, 0x200), (2, 0x1122334455667788)] 0)) 0x200
      [0x88#8, 0x77#8, 0x66#8, 0x55#8, 0x00#8, 0x00#8] 1 0x204 = true := by decide
theorem test_str_post_same_register :
    stores (run 0xf8008421 (st [(1, 0x200)] 0)) 0x200
      [0x00#8, 0x02#8, 0x00#8, 0x00#8, 0x00#8, 0x00#8, 0x00#8, 0x00#8] 1 0x208 = true := by decide
theorem test_b_backward_wraps : ends (run 0x17FFFFFE (st [] 0)) 0 0 0xFFFFFFFFFFFFFFF8 0 = true := by decide
theorem test_b_backward : ends (run 0x17FFFFF0 ((st [] 0).setPc 0x40)) 0 0 0 0 = true := by decide
theorem test_br_unaligned : ends (run 0xD61F0060 (st [(3, 0x41)] 0)) 3 0x41 0x41 0 = true := by decide
theorem test_br_zero_register : ends (run 0xD61F03E0 ((st [] 0).setPc 0x40)) 0 0 0 0 = true := by decide

/-- The rows of the condition table of 95_test_vectors.md section 2.8: taken (`true`) or not under the seven flag
settings, by
one step of the B.cond word with `simm19 = -2` at `pc = 0x10`. -/
def condRow (cond : Nat) : List Bool :=
  [0x0, 0x4, 0x8, 0x9, 0x1, 0x6, 0xF].map fun nzcv =>
    ends (run (0x54FFFFC0 + cond) ((st [] nzcv).setPc 0x10)) 0 0 0x8 nzcv

/-- The same for the settings that do not take the branch. -/
def fallRow (cond : Nat) : List Bool :=
  [0x0, 0x4, 0x8, 0x9, 0x1, 0x6, 0xF].map fun nzcv =>
    ends (run (0x54FFFFC0 + cond) ((st [] nzcv).setPc 0x10)) 0 0 0x14 nzcv

theorem test_b_eq : condRow 0 = [false, true, false, false, false, true, true] ∧
    fallRow 0 = [false, true, false, false, false, true, true].map (!·) := by decide
theorem test_b_ne : condRow 1 = [true, false, true, true, true, false, false] ∧
    fallRow 1 = [true, false, true, true, true, false, false].map (!·) := by decide
theorem test_b_ge : condRow 10 = [true, true, false, true, false, true, true] ∧
    fallRow 10 = [true, true, false, true, false, true, true].map (!·) := by decide
theorem test_b_lt : condRow 11 = [false, false, true, false, true, false, false] ∧
    fallRow 11 = [false, false, true, false, true, false, false].map (!·) := by decide
theorem test_b_gt : condRow 12 = [true, false, false, true, false, false, false] ∧
    fallRow 12 = [true, false, false, true, false, false, false].map (!·) := by decide
theorem test_b_le : condRow 13 = [false, true, true, false, true, true, true] ∧
    fallRow 13 = [false, true, true, false, true, true, true].map (!·) := by decide
theorem test_b_al : condRow 14 = [true, true, true, true, true, true, true] ∧
    fallRow 14 = [true, true, true, true, true, true, true].map (!·) := by decide

/-- HALT at `pc = 0x20` with `X0 = 7` and N set (95_test_vectors.md section 1.3). -/
theorem test_halt : ends (run 0x8A000000 ((st [(0, 7)] 8).setPc 0x20)) 0 7 0x20 8 = true ∧
    statusOf (run 0x8A000000 ((st [(0, 7)] 8).setPc 0x20)) = some .halted := by decide

/-! ### Errors (95_test_vectors.md sections 2.7 and 2.9) -/

theorem test_bounds_64_bit :
    faults (run 0xF9400020 (st [(1, 0x1FFFF9)] 0)) (.boundsError 0x1FFFF9 8 0) = true := by decide
theorem test_bounds_32_bit_top : ends (run 0xB9400020 (st [(1, 0x1FFFFC)] 0)) 0 0 4 0 = true := by decide
theorem test_bounds_address_is_not_truncated :
    faults (run 0xF9400020 (stMem [(1, 0x100000108)])) (.boundsError 0x100000108 8 0) = true := by decide
theorem test_bounds_load_to_zero_register :
    faults (run 0xF940003F (st [(1, 0x200000)] 0)) (.boundsError 0x200000 8 0) = true := by decide
theorem test_decode_error : faults (run 0xD503201F (st [] 0)) (.decodeError 0xD503201F#32 0) = true := by decide
theorem test_fetch_top : faults (step ((st [] 0).setPc 0x1FFFFC)) (.decodeError 0#32 0x1FFFFC) = true := by decide
theorem test_fetch_bounds :
    faults (step ((st [] 0).setPc 0x1FFFFD)) (.boundsError 0x1FFFFD 4 0x1FFFFD) = true := by decide
theorem test_fetch_align :
    faults (step (alignSt 2)) (.fetchAlignError 2) = true := by decide
theorem test_codes : [Fault.decodeError 0 0, .boundsError 0 4 0, .registerBoundsError 32, .fetchAlignError 2,
    .imageLoadError 0].map Fault.code = [1, 2, 2, 3, 4] := by decide

/-! ### The dump (R350, R351; the lines of 95_test_vectors.md section 1) -/

theorem test_dump_flags_line : flagsLine (PState.ofNzcv 6) = "PSTATE : -ZC-\n".toList := by decide
theorem test_dump_register_line :
    registerLine (st [(1, 0xDEADBEEF)] 0) 1 = "X01    = 00000000deadbeef\n".toList := by decide
theorem test_dump_pc_line : pcLine ((st [] 0).setPc 0xC) = "PC     = 000000000000000c\n".toList := by decide
theorem test_dump_memory_lines :
    (dumpAddrs (Memory.store64 [] 0x107 0x1100000000000042)).flatMap
      (memoryLine (Memory.store64 [] 0x107 0x1100000000000042)) =
      "0x00000104: 42000000\n0x0000010c: 00110000\n".toList := by decide

/-! ### Witnesses of the hypotheses of the obligations -/

/-- O10: `2 ≤ hw`, at both values. -/
theorem witness_WideMovesOf32BitsIgnoreUpperHalfWords : 2 ≤ (2#2).toNat ∧ 2 ≤ (3#2).toNat := by decide

/-- O11: the largest amounts below each width. -/
theorem witness_ShiftsMatchIntegerFormulas : 31 < Width.bits .w32 ∧ 63 < Width.bits .w64 := by decide

/-- O12: the first clause at its edges (64-bit by 63, ROR by 32, 32-bit by 31, and index 31), the second at 32 and
63. -/
theorem witness_ShiftedOperandIsShiftOrFreeValue :
    isOversize .w64 .lsl 63 = false ∧ isOversize .w32 .ror 32 = false ∧ isOversize .w32 .asr 31 = false ∧
    (shiftedOperand (st [] 0) .w32 .lsr 31 31).toNat = 0 ∧
    (Width.w32 = .w32 ∧ ShiftType.lsl ≠ .ror ∧ 32 ≤ (32#6).toNat) ∧
    (Width.w32 = .w32 ∧ ShiftType.asr ≠ .ror ∧ 32 ≤ (63#6).toNat) := by decide

/-- O24: the last addresses in range and the first out of range. -/
theorem witness_MemoryAccessorsCheckBounds :
    (0x1FFFF8#32).toNat + 8 = Config.memSize ∧ (0x1FFFF9#32).toNat + 8 = Config.memSize + 1 ∧
    (0x1FFFFC#32).toNat + 4 = Config.memSize ∧ (0x1FFFFD#32).toNat + 4 = Config.memSize + 1 := by decide

/-- O25, O30: the last address in range and the first out of range, for each size. -/
theorem witness_LoadUnsignedOffsetReadsLittleEndian :
    (immOffsetAddr (st [(1, 0x1FFFF0)] 0) .w64 1 1).toNat + Width.bytes .w64 = Config.memSize ∧
    (immOffsetAddr (st [(1, 0x1FFFF8)] 0) .w32 1 1).toNat + Width.bytes .w32 = Config.memSize ∧
    (immOffsetAddr (st [(1, 0x1FFFF1)] 0) .w64 1 1).toNat + Width.bytes .w64 = Config.memSize + 1 ∧
    (immOffsetAddr (st [(1, 0x1FFFF9)] 0) .w32 1 1).toNat + Width.bytes .w32 = Config.memSize + 1 := by decide
theorem witness_StoreUnsignedOffsetWritesLittleEndian :
    (immOffsetAddr (st [(1, 0x1FFFF8)] 0) .w64 0 1).toNat + Width.bytes .w64 = Config.memSize ∧
    (immOffsetAddr (st [(1, 0x1FFFF9)] 0) .w64 0 1).toNat + Width.bytes .w64 = Config.memSize + 1 := by decide

/-- O26, O31: the same for register offsets, one of them negative. -/
theorem witness_LoadRegisterOffsetReadsLittleEndian :
    (regOffsetAddr (st [(1, 0x200000), (2, 0xFFFFFFFFFFFFFFFC)] 0) 2 1).toNat + Width.bytes .w32 = Config.memSize ∧
    (regOffsetAddr (st [(1, 0x1FFFF0), (2, 9)] 0) 2 1).toNat + Width.bytes .w64 = Config.memSize + 1 := by decide
theorem witness_StoreRegisterOffsetWritesLittleEndian :
    (regOffsetAddr (st [(1, 0x1FFFF0), (2, 8)] 0) 2 1).toNat + Width.bytes .w64 = Config.memSize ∧
    (regOffsetAddr (st [(1, 0x1FFFF0), (2, 13)] 0) 2 1).toNat + Width.bytes .w32 = Config.memSize + 1 := by decide

/-- O27: the same for literals; a negative displacement from 0 is out of range. -/
theorem witness_LoadLiteralReadsLittleEndian :
    (literalAddr ((st [] 0).setPc 0x1FFFF4) 1).toNat + Width.bytes .w64 = Config.memSize ∧
    (literalAddr ((st [] 0).setPc 0x1FFFF8) 1).toNat + Width.bytes .w32 = Config.memSize ∧
    Config.memSize < (literalAddr (st [] 0) 0x7FFFE).toNat + Width.bytes .w64 := by decide

/-- O28, O32: the same for pre-index addresses, and both cases of the write-back register. -/
theorem witness_LoadPreIndexWritesBackFirst :
    (indexedAddr (st [(1, 0x200000)] 0) 0x1F8 1).toNat + Width.bytes .w64 = Config.memSize ∧
    (indexedAddr (st [(1, 0x200000)] 0) 0x1F9 1).toNat + Width.bytes .w64 = Config.memSize + 1 ∧
    Config.memSize < (indexedAddr (st [] 0) 0x1F8 1).toNat + Width.bytes .w64 ∧ (1#5 : RegIdx) ≠ 0#5 := by decide
theorem witness_StorePreIndexWritesBackFirst :
    (indexedAddr (st [(1, 0x200000)] 0) 0x1FC 1).toNat + Width.bytes .w32 = Config.memSize ∧
    (indexedAddr (st [(1, 0x200000)] 0) 0x1FD 1).toNat + Width.bytes .w32 = Config.memSize + 1 ∧
    isOverlap 1 1 = true ∧ isOverlap 31 31 = false ∧ isOverlap 1 0 = false := by decide

/-- O29, O33: the same for the old base of the post-index forms. -/
theorem witness_LoadPostIndexWritesBackAfter :
    ((st [(1, 0x1FFFF8)] 0).x 1).toNat + Width.bytes .w64 = Config.memSize ∧
    ((st [(1, 0x1FFFF9)] 0).x 1).toNat + Width.bytes .w64 = Config.memSize + 1 ∧
    isOverlap 1 1 = true ∧ isOverlap 31 31 = false ∧ isOverlap 1 0 = false := by decide
theorem witness_StorePostIndexWritesBackAfter :
    ((st [(1, 0x1FFFFC)] 0).x 1).toNat + Width.bytes .w32 = Config.memSize ∧
    ((st [(1, 0x1FFFFD)] 0).x 1).toNat + Width.bytes .w32 = Config.memSize + 1 := by decide

/-- The overlap forms and the oversize shift run, and make one draw each (O12, O29, O32). -/
theorem test_draws_are_counted :
    drawsOf (run 0xF8408421 (stMem [(1, 0x108)])) = some 1 ∧ drawsOf (run 0xF8008C21 (st [(1, 0x100)] 0)) = some 1 ∧
    drawsOf (run 0x2A0183E0 (st [(1, 1)] 0)) = some 1 ∧ drawsOf (run 0x2AC183E0 (st [(1, 1)] 0)) = some 0 ∧
    drawsOf (run 0xF840843F (st [(1, 0x108)] 0)) = some 0 := by decide

/-- O35: every condition but `al` holds in some flags and fails in others; `al` holds. -/
theorem witness_ConditionalBranchesFollowTheirConditions :
    condMeans .eq (PState.ofNzcv 4) ∧ ¬ condMeans .eq (PState.ofNzcv 0) ∧
    condMeans .ne (PState.ofNzcv 0) ∧ ¬ condMeans .ne (PState.ofNzcv 4) ∧
    condMeans .ge (PState.ofNzcv 9) ∧ ¬ condMeans .ge (PState.ofNzcv 8) ∧
    condMeans .lt (PState.ofNzcv 1) ∧ ¬ condMeans .lt (PState.ofNzcv 0) ∧
    condMeans .gt (PState.ofNzcv 0) ∧ ¬ condMeans .gt (PState.ofNzcv 4) ∧
    condMeans .le (PState.ofNzcv 8) ∧ ¬ condMeans .le (PState.ofNzcv 9) ∧ condMeans .al (PState.ofNzcv 0) := by
  simp [condMeans, PState.ofNzcv]

/-- O37: a Running core that fetches the HALT word without an error, at an odd address. -/
theorem witness_HaltChangesOnlyTheRunStatus :
    Fetches ((((st [] 0).setPc 0x21)).setMem (Memory.store32 [] 0x21 0x8A000000#32)) ∧
    Memory.load32 (Memory.store32 [] 0x21 0x8A000000#32) 0x21 = 0x8A000000#32 :=
  ⟨⟨by decide, by decide, by decide⟩, by decide⟩

/-- O38, O39, O41: instructions of each kind that answer a next state; HALT too. -/
theorem witness_OnlyFlagSettingInstructionsWriteFlags :
    (Instr.ldrImm .w64 0 1 0).writesFlags = false ∧
    ∃ t, exec (.ldrImm .w64 0 1 0) (st [(1, 0x1FFFF8)] 15) = .next t :=
  ⟨rfl, _, rfl⟩
theorem witness_EveryOtherInstructionAdvancesPcByFour :
    (Instr.strPost .w32 4 1 2).isBranch = false ∧ (Instr.strPost .w32 4 1 2) ≠ .halt ∧
    (∃ t, exec (.strPost .w32 4 1 2) (st [(1, 0x200)] 0) = .next t) ∧ ∃ t, exec .halt (st [] 0) = .next t :=
  ⟨by decide, by decide, ⟨_, rfl⟩, ⟨_, rfl⟩⟩
theorem witness_OnlyHaltChangesTheRunStatus : ∃ t, exec (.b 0) (st [] 0) = .next t ∧ Instr.b 0 ≠ .halt :=
  ⟨_, rfl, by decide⟩

/-- O40: an instruction that is no B.cond, once with a next state and once with a fault, and a B.cond. -/
theorem witness_OnlyConditionalBranchesReadFlags :
    (Instr.ldrImm .w64 0 1 0).isBranchCond = false ∧
    (∃ t, exec (.ldrImm .w64 0 1 0) (st [(1, 0x1FFFF8)] 0) = .next t) ∧
    exec (.ldrImm .w64 0 1 0) (st [(1, 0x1FFFF9)] 0) = .fault (.boundsError 0x1FFFF9 8 0) ∧
    ∃ t, exec (condInstr .ge 2) (st [] 0) = .next t :=
  ⟨rfl, ⟨_, rfl⟩, rfl, ⟨_, rfl⟩⟩

/-- O42: the fault of a load at the first address out of range. -/
theorem witness_ExecutionFaultsOnlyOutOfBounds :
    exec (.strImm .w32 0 1 2) (st [(1, 0x1FFFFD)] 0) = .fault (.boundsError 0x1FFFFD 4 0) := rfl

/-- O43: the bytes of an ADD at the pc, with the step's fetch free of errors at the last word of memory. -/
theorem witness_StepRunsTheDecodedInstruction :
    Fetches (((st [] 0).setPc 0x1FFFFC).setMem (Memory.store32 [] 0x1FFFFC 0x91000420#32)) ∧
    decodeWord (Memory.load32 (Memory.store32 [] 0x1FFFFC 0x91000420#32) 0x1FFFFC) = .ok (.addImm .w64 false 1 1 0) :=
  ⟨⟨by decide, by decide, by decide⟩, by decide⟩

/-- O44: an unaligned pc with the parameter set (out of range as well), and the first pc out of range without it and,
aligned,
with it. -/
theorem witness_FetchErrorsComeInOrder :
    faults (step (alignSt 0x1FFFFD)) (.fetchAlignError 0x1FFFFD) = true ∧
    faults (step ((st [] 0).setPc 0x1FFFFD)) (.boundsError 0x1FFFFD 4 0x1FFFFD) = true ∧
    faults (step (alignSt 0x200000)) (.boundsError 0x200000 4 0x200000) = true := by decide

/-- O45: the all-zero word matches no row; the instruction is arbitrary, so the hypothesis is shown by cases. -/
theorem witness_UnknownWordsRaiseDecodeError :
    Fetches (st [] 0) ∧ ∀ i : Instr, (opcodeRow i).matchesWord (Memory.load32 (st [] 0).mem (st [] 0).pc.toNat) =
    false :=
  ⟨⟨by decide, by decide, by decide⟩, fun i => by
    rw [show Memory.load32 (st [] 0).mem (st [] 0).pc.toNat = 0#32 by decide]
    cases i <;> simp only [opcodeRow] <;> decide⟩

/-- O46: a Halted and a Faulted core. -/
theorem witness_StoppedCoreTakesNoStep :
    ((st [] 0).setStatus .halted).status ≠ .running ∧
    ((st [] 0).setStatus (.faulted (.fetchAlignError 2))).status ≠ .running := by decide

/-- O47: a store of each form to the next instruction's address, the overlap form among them. -/
theorem witness_StoreIsSeenByTheNextFetch :
    (∃ t, exec (.strImm .w32 1 31 2) (st [(2, 0x8A000000)] 0) = .next t ∧
      (t.params.fetchAlignFault = true → t.pc.toNat % 4 = 0)) ∧
    immOffsetAddr (st [(2, 0x8A000000)] 0) .w32 1 31 = (st [(2, 0x8A000000)] 0).pc + 4#64 ∧
    (∃ t, exec (.strReg .w64 2 1 0) (st [(1, 12), (2, 0xFFFFFFFFFFFFFFF8)] 0) = .next t ∧
      (t.params.fetchAlignFault = true → t.pc.toNat % 4 = 0)) ∧
    regOffsetAddr (st [(1, 12), (2, 0xFFFFFFFFFFFFFFF8)] 0) 2 1 = 4#64 ∧
    (∃ t, exec (.strPre .w64 0x1FC 1 1) (st [(1, 8)] 0) = .next t ∧
      (t.params.fetchAlignFault = true → t.pc.toNat % 4 = 0)) ∧
    indexedAddr (st [(1, 8)] 0) 0x1FC 1 = 4#64 ∧
    (∃ t, exec (.strPost .w32 8 1 2) (st [(1, 4)] 0) = .next t ∧
      (t.params.fetchAlignFault = true → t.pc.toNat % 4 = 0)) ∧
    (st [(1, 4)] 0).x 1 = 4#64 :=
  ⟨⟨_, rfl, by decide⟩, by decide, ⟨_, rfl, by decide⟩, by decide, ⟨_, rfl, fun h => nomatch h⟩, by decide,
    ⟨_, rfl, by decide⟩, by decide⟩

/-- O48: the invariant, at reset and with bytes listed, and a step from such a state. -/
theorem witness_EveryStepKeepsTheMemoryCanonical :
    State.reset.Inv ∧ (stMem [(1, 0x108)]).Inv ∧ drawsOf (run 0xF9400020 (stMem [(1, 0x108)])) = some 0 :=
  ⟨⟨by decide, by decide⟩, ⟨by decide, by decide⟩, by decide⟩

/-- O50: well-formed instructions, the neighbour of the ill-formed one among them. -/
theorem witness_DecodeOfEncodeIsTheInstruction :
    (Instr.bLe 2).wellFormed = true ∧ (Instr.andReg .w64 .lsl 0 0 0 1).wellFormed = true ∧ Instr.halt.wellFormed =
    true := by
  decide

/-- O51: a word that decodes. -/
theorem witness_EncodeOfDecodeIsTheWord : decodeWord 0x5400004D#32 = .ok (.bLe 2) := by decide

/-- O52: words other than HALT that match the row of `B.LE` and of AND, and one that matches neither. -/
theorem witness_DecoderAcceptsExactlyTheOpcodeTable :
    (opcodeRow (.bLe 2)).matchesWord 0x5400004D#32 = true ∧ 0x5400004D#32 ≠ 0x8A000000#32 ∧
    (opcodeRow (.andReg .w64 .lsl 0 0 0 0)).matchesWord 0x8A000001#32 = true ∧ 0x8A000001#32 ≠ 0x8A000000#32 ∧
    (opcodeRow (.bLe 2)).matchesWord 0x5400005D#32 = false := by decide

/-- O54: the last byte of each access. -/
theorem witness_LoadAfterStoreGivesTheStoredValue : 3 < 4 ∧ 7 < 8 := by decide

/-- O55: two canonical memories that agree, built in different orders. -/
theorem witness_CanonicalMemoriesWithEqualBytesAreEqual :
    Memory.wf (Memory.write (Memory.write [] 5 1#8) 3 2#8) ∧
    Memory.wf (Memory.write (Memory.write (Memory.write [] 3 2#8) 5 1#8) 9 0#8) ∧
    (Memory.write (Memory.write [] 5 1#8) 3 2#8 = Memory.write (Memory.write (Memory.write [] 3 2#8) 5 1#8) 9 0#8) :=
    by
  decide

/-- O56: the longest image that fits, and the shortest that does not. -/
theorem witness_ImageLoadCopiesVerbatimAtZero :
    (List.replicate Config.memSize 1#8).length ≤ Config.memSize ∧
    Config.memSize < (List.replicate (Config.memSize + 1) 1#8).length := by simp

/-- O57, and O24: the indices on both sides of the limit, and an error on a Running and on a Halted core. -/
theorem witness_RegisterAccessorsCheckTheirIndex :
    hostRead64 (st [(30, 7)] 0) 30 = .done 7 (st [(30, 7)] 0) ∧ hostRead64 (st [(30, 7)] 0) 31 = .done 0 (st [(30,
    7)] 0) ∧
    hostWrite (st [(30, 7)] 0) 31 5 = .done () (st [(30, 7)] 0) ∧ 31 < 32 := by decide
theorem test_host_error_on_a_running_core :
    statusAfter (hostRead64 (st [] 0) 32) = .faulted (.registerBoundsError 32) ∧
    statusAfter (hostLoad64 (st [] 0) 0x1FFFF9) = .faulted (.boundsError 0x1FFFF9 8 0) := by decide
theorem test_host_error_on_a_halted_core :
    hostRead64 ((st [] 0).setStatus .halted) 32 =
      .raised (.registerBoundsError 32) ((st [] 0).setStatus .halted) := by decide

/-- O58: a Running core whose step halts, one whose step raises, and one whose step goes on. -/
theorem witness_SingleStepReportsTheRunStatus :
    (st [] 0).status = .running ∧
    (stepInstruction ((st [] 0).withFetchWord 32 0x8A000000)).2 = .halted ∧
    (stepInstruction (st [] 0)).2 = .faulted (.decodeError 0 0) ∧
    (stepInstruction ((st [] 0).withFetchWord 32 0xD28000A0)).2 = .running := by decide

/-- O60: a state with listed bytes that meets the invariant, and the addresses its dump lists. -/
theorem witness_DumpListsTheNonZeroAlignedWords :
    (stMem []).Inv ∧ dumpAddrs (stMem []).mem = [0x108, 0x10C] :=
  ⟨⟨by decide, by decide⟩, by decide⟩

end Sys2Proof.Tests
end

/-!
SUPPORT. What `exec` can do: the transfers as equations, `KeepsRest` through every update, and the one case distinction on
`exec` from which whole-ISA statements follow.
-/

namespace Sys2Proof.Machine

/-! ### The run status, the stack pointer and the parameters through every update -/

section
variable {s t : State}

@[simp] theorem keepsRest_refl : KeepsRest s s := ⟨rfl, rfl, rfl⟩
@[simp] theorem keepsRest_setX {i : RegIdx} {v : Word} : KeepsRest s (t.setX i v) ↔ KeepsRest s t := by
  simp [KeepsRest]
@[simp] theorem keepsRest_writeW {sf : Width} {i : RegIdx} {v : BitVec sf.bits} :
    KeepsRest s (t.writeW sf i v) ↔ KeepsRest s t :=
  keepsRest_setX
@[simp] theorem keepsRest_setFlags {f : PState} : KeepsRest s (t.setFlags f) ↔ KeepsRest s t := Iff.rfl
@[simp] theorem keepsRest_setPc {a : Word} : KeepsRest s (t.setPc a) ↔ KeepsRest s t := Iff.rfl
@[simp] theorem keepsRest_advance : KeepsRest s t.advance ↔ KeepsRest s t := Iff.rfl
@[simp] theorem keepsRest_setMem {m : Memory} : KeepsRest s (t.setMem m) ↔ KeepsRest s t := Iff.rfl
@[simp] theorem keepsRest_afterShift {sf : Width} {shift : ShiftType} {operand : BitVec 6} :
    KeepsRest s (afterShift t sf shift operand) ↔ KeepsRest s t := by
  simp [KeepsRest]
@[simp] theorem keepsRest_afterOverlap {xn rt : RegIdx} : KeepsRest s (afterOverlap t xn rt) ↔ KeepsRest s t := by
  simp [KeepsRest]

end

@[simp] theorem keepsRest_branchIf (cond : Cond) (simm19 : BitVec 19) (s : State) :
    KeepsRest s (branchIf cond simm19 s) := by
  unfold branchIf
  split <;> simp

/-! ### How a load or store ends -/

/-- A load or store run from `s` ends: it completes, or it answers BoundsError of its access with the pc of `s` (R64). -/
def TransferEnds (s : State) (o : Host.Outcome State Fault Refusal) : Prop :=
  (∃ t, o = .next t ∧ KeepsRest s t) ∨
  ∃ (addr : Word) (sf : Width),
    o = .fault (.boundsError addr.toNat sf.bytes s.pc) ∧ Config.memSize < addr.toNat + sf.bytes

/-- An access that completes when it is in range and else gives BoundsError ends as a transfer does. -/
theorem transferEnds_ite {s u : State} {sf : Width} {addr : Word} (hu : KeepsRest s u) :
    TransferEnds s (if addr.toNat + sf.bytes ≤ Config.memSize then .next u
      else .fault (.boundsError addr.toNat sf.bytes s.pc)) := by
  split
  · exact .inl ⟨u, rfl, hu⟩
  · exact .inr ⟨addr, sf, rfl, by omega⟩

/-- A load into a register, as an outcome. -/
theorem finish_loadInto (s : State) (sf : Width) (addr : Word) (rt : RegIdx) :
    finish (loadInto s sf addr rt) =
      if addr.toNat + sf.bytes ≤ Config.memSize then
        .next (s.setX rt (Memory.loadWidth s.mem sf addr.toNat)).advance
      else .fault (.boundsError addr.toNat sf.bytes s.pc) := by
  rw [loadInto_eq]
  split <;> rfl

/-- A store, as an outcome. -/
theorem finish_storeValue (s : State) (sf : Width) (addr v : Word) :
    finish (storeValue s sf addr v) =
      if addr.toNat + sf.bytes ≤ Config.memSize then
        .next (s.setMem (Memory.storeWidth s.mem sf addr.toNat v)).advance
      else .fault (.boundsError addr.toNat sf.bytes s.pc) := by
  rw [storeValue_eq]
  split <;> rfl

/-- LDR (post-index): on overlap one register write of the drawn value, else the load and the write-back (R248). -/
theorem execLdrPost_eq (sf : Width) (simm9 : BitVec 9) (xn rt : RegIdx) (s : State) :
    execLdrPost sf simm9 xn rt s =
      if (s.x xn).toNat + sf.bytes ≤ Config.memSize then
        .next (if isOverlap xn rt then
            (afterOverlap s xn rt).setX xn
              (postLoadOverlapValue s simm9 xn (Memory.loadWidth s.mem sf (s.x xn).toNat))
          else ((afterOverlap s xn rt).setX rt (Memory.loadWidth s.mem sf (s.x xn).toNat)).setX xn
            (indexedAddr s simm9 xn)).advance
      else .fault (.boundsError (s.x xn).toNat sf.bytes s.pc) := by
  rw [execLdrPost, loadValue_eq]
  by_cases hb : (s.x xn).toNat + sf.bytes ≤ Config.memSize
  · by_cases ho : isOverlap xn rt = true <;> simp [hb, ho, finish]
  · simp [hb, raise]

/-- STR (post-index): the store at the old base, then the write-back (R249). -/
theorem execStrPost_eq (sf : Width) (simm9 : BitVec 9) (xn rt : RegIdx) (s : State) :
    execStrPost sf simm9 xn rt s =
      if (s.x xn).toNat + sf.bytes ≤ Config.memSize then
        .next ((s.setMem (Memory.storeWidth s.mem sf (s.x xn).toNat (s.x rt))).setX xn
          (indexedAddr s simm9 xn)).advance
      else .fault (.boundsError (s.x xn).toNat sf.bytes s.pc) := by
  rw [execStrPost, storeValue_eq]
  by_cases hb : (s.x xn).toNat + sf.bytes ≤ Config.memSize
  · simp [hb, finish]
  · simp [hb, raise]

/-- A load that follows updates keeping `pc` and `KeepsRest` ends as a transfer does. -/
theorem transferEnds_loadInto {s u : State} (sf : Width) (addr : Word) (rt : RegIdx) (hu : KeepsRest s u)
    (hpc : u.pc = s.pc) : TransferEnds s (finish (loadInto u sf addr rt)) := by
  rw [finish_loadInto, hpc]
  exact transferEnds_ite (by simpa using hu)

/-- A store that follows updates keeping `pc` and `KeepsRest` ends as a transfer does. -/
theorem transferEnds_storeValue {s u : State} (sf : Width) (addr v : Word) (hu : KeepsRest s u)
    (hpc : u.pc = s.pc) : TransferEnds s (finish (storeValue u sf addr v)) := by
  rw [finish_storeValue, hpc]
  exact transferEnds_ite (by simpa using hu)

theorem transferEnds_execLdrPost (sf : Width) (simm9 : BitVec 9) (xn rt : RegIdx) (s : State) :
    TransferEnds s (execLdrPost sf simm9 xn rt s) := by
  rw [execLdrPost_eq]
  refine transferEnds_ite ?_
  split <;> simp

theorem transferEnds_execStrPost (sf : Width) (simm9 : BitVec 9) (xn rt : RegIdx) (s : State) :
    TransferEnds s (execStrPost sf simm9 xn rt s) := by
  rw [execStrPost_eq]
  exact transferEnds_ite (by simp)

/-! ### What exec can do -/

/-- Every load and store completes or answers BoundsError. -/
theorem exec_transferEnds {i : Instr} (h : i.isTransfer = true) (s : State) : TransferEnds s (exec i s) := by
  cases i with
  | ldrImm sf imm12 xn rt => exact transferEnds_loadInto _ _ _ keepsRest_refl rfl
  | ldrReg sf xm xn rt => exact transferEnds_loadInto _ _ _ keepsRest_refl rfl
  | ldrLit sf simm19 rt => exact transferEnds_loadInto _ _ _ keepsRest_refl rfl
  | ldrPre sf simm9 xn rt => exact transferEnds_loadInto _ _ _ (by simp) (by simp)
  | strImm sf imm12 xn rt => exact transferEnds_storeValue _ _ _ keepsRest_refl rfl
  | strReg sf xm xn rt => exact transferEnds_storeValue _ _ _ keepsRest_refl rfl
  | strPre sf simm9 xn rt => exact transferEnds_storeValue _ _ _ (by simp) (by simp)
  | ldrPost sf simm9 xn rt => exact transferEnds_execLdrPost _ _ _ _ _
  | strPost sf simm9 xn rt => exact transferEnds_execStrPost _ _ _ _ _
  | _ => cases h

/-- Every other instruction but HALT completes. -/
theorem exec_completes {i : Instr} (h : i.isTransfer = false) (hi : i ≠ .halt) (s : State) :
    ∃ t, exec i s = .next t ∧ KeepsRest s t := by
  cases i with
  | halt => exact absurd rfl hi
  | ldrImm | strImm | ldrReg | strReg | ldrPre | strPre | ldrPost | strPost | ldrLit => cases h
  | _ => exact ⟨_, rfl, by simp⟩

/-- All that `exec` can do: HALT sets the status (R163), any other instruction completes without touching the status, the
stack pointer and the parameters, or it is a load or store that answers BoundsError (R302). -/
theorem exec_cases (i : Instr) (s : State) :
    (i = .halt ∧ exec i s = .next (s.setStatus .halted)) ∨
    (∃ t, exec i s = .next t ∧ KeepsRest s t) ∨
    (i.isTransfer = true ∧ ∃ (addr : Word) (sf : Width),
      exec i s = .fault (.boundsError addr.toNat sf.bytes s.pc) ∧ Config.memSize < addr.toNat + sf.bytes) := by
  by_cases hi : i = .halt
  · subst hi
    exact .inl ⟨rfl, rfl⟩
  · cases ht : i.isTransfer with
    | false => exact .inr (.inl (exec_completes ht hi s))
    | true => exact .inr ((exec_transferEnds ht s).imp_right fun he => ⟨rfl, he⟩)

/-- The only errors of `exec` are those of the accesses: a BoundsError with the pc of the instruction. -/
theorem exec_fault {i : Instr} {s : State} {e : Fault} (h : exec i s = .fault e) :
    i.isTransfer = true ∧ ∃ (addr : Word) (sf : Width),
      e = .boundsError addr.toNat sf.bytes s.pc ∧ Config.memSize < addr.toNat + sf.bytes := by
  obtain ⟨-, hn⟩ | ⟨t, hn, -⟩ | ⟨ht, addr, sf, hf, hb⟩ := exec_cases i s
  · rw [hn] at h; cases h
  · rw [hn] at h; cases h
  · rw [hf] at h; cases h
    exact ⟨ht, addr, sf, rfl, hb⟩

/-- Settles O41, from the cases of `exec`: only HALT's own case writes one of the three fields. -/
theorem onlyHaltChangesTheRunStatus : Obligations.OnlyHaltChangesTheRunStatus := by
  intro i s t h
  obtain ⟨hi, hn⟩ | ⟨u, hn, hstatus, hsp, hparams⟩ | ⟨-, addr, sf, hf, -⟩ := exec_cases i s
  · rw [hn] at h; cases h
    exact ⟨rfl, rfl, fun hne => absurd hi hne⟩
  · rw [hn] at h; cases h
    exact ⟨hsp, hparams, fun _ => hstatus⟩
  · rw [hf] at h; cases h

end Sys2Proof.Machine

/-!
SUPPORT. The little-endian accesses: the bytes of a loaded word, and what a load gives after a store.
-/

namespace Sys2Proof.Machine

/-! ### Bytes and words -/

/-- Byte `k` of a word is the `k`-th byte it is made of (R63). -/
theorem extractLsb'_wordOfBytes (b : Nat → Byte) {k : Nat} (hk : k < 4) :
    (wordOfBytes (b 0) (b 1) (b 2) (b 3)).extractLsb' (8 * k) 8 = b k := by
  interval_cases k
  · exact BitVec.extractLsb'_append_eq_right
  · exact (BitVec.extractLsb'_append_eq_of_le (by decide)).trans BitVec.extractLsb'_append_eq_right
  · exact (BitVec.extractLsb'_append_eq_of_le (by decide)).trans
      ((BitVec.extractLsb'_append_eq_of_le (by decide)).trans BitVec.extractLsb'_append_eq_right)
  · exact (BitVec.extractLsb'_append_eq_of_le (by decide)).trans
      ((BitVec.extractLsb'_append_eq_of_le (by decide)).trans BitVec.extractLsb'_append_eq_left)

/-- A word is made of its four bytes (R63). -/
theorem wordOfBytes_bitField (v : InstrWord) :
    wordOfBytes (bitField v 0 8) (bitField v 8 8) (bitField v 16 8) (bitField v 24 8) = v := by
  have high : v.extractLsb' 24 8 ++ v.extractLsb' 16 8 = v.extractLsb' 16 16 :=
    BitVec.extractLsb'_append_extractLsb'_eq_extractLsb' rfl
  have upper : v.extractLsb' 16 16 ++ v.extractLsb' 8 8 = v.extractLsb' 8 24 :=
    BitVec.extractLsb'_append_extractLsb'_eq_extractLsb' rfl
  calc v.extractLsb' 24 8 ++ v.extractLsb' 16 8 ++ v.extractLsb' 8 8 ++ v.extractLsb' 0 8
      = v.extractLsb' 8 24 ++ v.extractLsb' 0 8 := by rw [high]; exact congrArg (· ++ _) upper
    _ = v := BitVec.extractLsb'_append_extractLsb'

/-! ### The bytes of a load -/

theorem Memory.extractLsb'_load32 (m : Memory) (a : Nat) {k : Nat} (hk : k < 4) :
    (Memory.load32 m a).extractLsb' (8 * k) 8 = Memory.read m (a + k) :=
  extractLsb'_wordOfBytes (fun j => Memory.read m (a + j)) hk

theorem Memory.extractLsb'_load64 (m : Memory) (a : Nat) {k : Nat} (hk : k < 8) :
    (Memory.load64 m a).extractLsb' (8 * k) 8 = Memory.read m (a + k) := by
  unfold Memory.load64
  by_cases hlow : k < 4
  · rw [BitVec.extractLsb'_append_eq_of_add_le (by omega), Memory.extractLsb'_load32 m a hlow]
  · have hoff : 8 * k - 32 = 8 * (k - 4) := by omega
    have haddr : a + 4 + (k - 4) = a + k := by omega
    rw [BitVec.extractLsb'_append_eq_of_le (by omega), hoff, Memory.extractLsb'_load32 m (a + 4) (by omega), haddr]

/-! ### Load after store -/

theorem Memory.load32_store32_self (m : Memory) (a : Nat) (v : BitVec 32) :
    Memory.load32 (Memory.store32 m a v) a = v := by
  simp [Memory.load32, Memory.read_store32, wordOfBytes_bitField]

/-- A 4-byte store that does not meet the four bytes at `b` leaves the load from `b` as it was. -/
theorem Memory.load32_store32_of_disjoint (m : Memory) {a b : Nat} (v : BitVec 32) (h : b + 4 ≤ a ∨ a + 4 ≤ b) :
    Memory.load32 (Memory.store32 m a v) b = Memory.load32 m b := by
  have hread : ∀ k < 4, Memory.read (Memory.store32 m a v) (b + k) = Memory.read m (b + k) := fun k hk => by
    rw [Memory.read_store32, if_neg (by omega), if_neg (by omega), if_neg (by omega), if_neg (by omega)]
  simp only [Memory.load32, hread 1 (by omega), hread 2 (by omega), hread 3 (by omega)]
  rw [show Memory.read (Memory.store32 m a v) b = Memory.read m b from hread 0 (by omega)]

theorem Memory.load32_store64_low (m : Memory) (a : Nat) (v : BitVec 64) :
    Memory.load32 (Memory.store64 m a v) a = v.extractLsb' 0 32 := by
  rw [Memory.store64, Memory.load32_store32_of_disjoint _ _ (by omega), Memory.load32_store32_self, bitField]

theorem Memory.load32_store64_high (m : Memory) (a : Nat) (v : BitVec 64) :
    Memory.load32 (Memory.store64 m a v) (a + 4) = v.extractLsb' 32 32 := by
  rw [Memory.store64, Memory.load32_store32_self, bitField]

theorem Memory.load64_store64_self (m : Memory) (a : Nat) (v : BitVec 64) :
    Memory.load64 (Memory.store64 m a v) a = v := by
  rw [Memory.load64, Memory.load32_store64_low, Memory.load32_store64_high]
  exact BitVec.extractLsb'_append_extractLsb'

/-- Settles O54, one lemma per clause. -/
theorem loadAfterStoreGivesTheStoredValue : Obligations.LoadAfterStoreGivesTheStoredValue := fun m a v u =>
  ⟨Memory.load64_store64_self m a v, Memory.load32_store64_low m a v, Memory.load32_store64_high m a v,
    Memory.load32_store32_self m a u, fun _ => Memory.extractLsb'_load32 m a, fun _ => Memory.extractLsb'_load64 m a⟩

end Sys2Proof.Machine

/-!
SUPPORT. The registers as an instruction reads them and as the host's accessors read and write them.
-/

namespace Sys2Proof.Machine

/-- The read an instruction makes is the register mod 2^W (R13, R32). -/
theorem readW_toNat (s : State) (sf : Width) (r : RegIdx) : (s.readW sf r).toNat = (s.x r).toNat % 2 ^ sf.bits :=
  BitVec.toNat_setWidth _ _

/-- The index of the host's number `i` is the zero register for 31 only. -/
theorem ofNat_eq_31_iff {i : Nat} (h : i ≤ 31) : BitVec.ofNat 5 i = 31#5 ↔ i = 31 := by
  bv_omega

/-! ### The accessors on an index they accept -/

section
variable (s : State) {i : Nat} (h : i ≤ 31)
include h

theorem hostRead64_of_le : hostRead64 s i = .done (if i = 31 then 0#64 else s.x (BitVec.ofNat 5 i)) s := by
  rw [hostRead64, withHostReg_of_le s _ h]
  split
  · subst i; rw [State.x_zero]
  · rfl

theorem hostRead32_of_le :
    hostRead32 s i = .done (if i = 31 then 0#32 else (s.x (BitVec.ofNat 5 i)).extractLsb' 0 32) s := by
  rw [hostRead32, withHostReg_of_le s _ h]
  split
  · subst i; rw [State.x_zero]; rfl
  · rw [BitVec.setWidth_eq_extractLsb' (by decide)]

theorem hostWrite_of_le (v : Word) : hostWrite s i v = .done () (s.setX (BitVec.ofNat 5 i) v) :=
  withHostReg_of_le s _ h

/-- The host reads back what it wrote, but from the zero register. -/
theorem hostRead64_setX (v : Word) :
    hostRead64 (s.setX (BitVec.ofNat 5 i) v) i =
      .done (if i = 31 then 0#64 else v) (s.setX (BitVec.ofNat 5 i) v) := by
  rw [hostRead64_of_le _ h, State.setX_x_self, if_congr (ofNat_eq_31_iff h) rfl rfl]
  split <;> rfl

end

/-! ### A register write -/

/-- A register write leaves memory, status, stack pointer, parameters and the other registers alone. -/
theorem setX_onlyRegs (s : State) (r : RegIdx) (v : Word) : OnlyRegs [r] s (s.setX r v) :=
  ⟨setX_keepsRegsBut s r v, fun b => by rw [State.setX_mem], by simp⟩

/-- No instruction gives the register BoundsError: its own error is a BoundsError of memory (R33). -/
theorem exec_ne_registerBoundsError (j : Instr) (s : State) (k : Nat) : exec j s ≠ .fault (.registerBoundsError k) := by
  intro h
  obtain ⟨-, addr, sf, he, -⟩ := exec_fault h
  cases he

/-- Settles O57: the accessors by the two sides of their check, and the errors of `exec`. -/
theorem registerAccessorsCheckTheirIndex : Obligations.RegisterAccessorsCheckTheirIndex := by
  refine ⟨readW_toNat, fun s i v => ⟨fun h => ?_, fun h => ?_⟩, exec_ne_registerBoundsError⟩
  · refine ⟨hostRead64_of_le s h, hostRead32_of_le s h, _, hostWrite_of_le s h v, hostRead64_setX s h v,
      setX_onlyRegs s _ v, by simp, by simp, by simp, ?_⟩
    rintro rfl
    exact State.setX_zero s v
  · exact ⟨afterHostRaise s (.registerBoundsError i), withHostReg_of_lt s _ h, withHostReg_of_lt s _ h,
      withHostReg_of_lt s _ h, afterHostRaise_spec s _⟩

end Sys2Proof.Machine

/-!
SUPPORT. What an instruction leaves in memory, flags and pc when it completes: one lemma on `exec`, from which the invariant
of every step and the whole-ISA frames of the flags and the pc follow.
-/

namespace Sys2Proof.Machine

/-! ### Branches -/

@[simp] theorem branchIf_mem (cond : Cond) (simm19 : BitVec 19) (s : State) : (branchIf cond simm19 s).mem = s.mem := by
  unfold branchIf; split <;> rfl
@[simp] theorem branchIf_flags (cond : Cond) (simm19 : BitVec 19) (s : State) :
    (branchIf cond simm19 s).flags = s.flags := by
  unfold branchIf; split <;> rfl

/-! ### What a completed instruction leaves -/

/-- The second memory is the first, or the first after one store in range: all that one instruction can do (R64, R240). -/
def StoredAtMostOnce (m m' : Memory) : Prop :=
  m' = m ∨ ∃ (sf : Width) (a : Nat) (v : Word), inBounds a sf.bytes ∧ m' = Memory.storeWidth m sf a v

/-- A load or store that completes has advanced the pc, kept the flags and stored at most once. -/
def TransferLeaves (s t : State) : Prop :=
  Advances s t ∧ StoredAtMostOnce s.mem t.mem

/-- A load that follows register updates only leaves what a transfer leaves. -/
theorem transferLeaves_of_loadInto {s u t : State} {sf : Width} {addr : Word} {rt : RegIdx} (hpc : u.pc = s.pc)
    (hflags : u.flags = s.flags) (hmem : u.mem = s.mem) (h : finish (loadInto u sf addr rt) = .next t) :
    TransferLeaves s t := by
  rw [finish_loadInto] at h
  split at h <;> cases h
  exact ⟨⟨by simp [hpc], by simp [hflags]⟩, .inl (by simp [hmem])⟩

/-- A store that follows register updates only leaves what a transfer leaves. -/
theorem transferLeaves_of_storeValue {s u t : State} {sf : Width} {addr v : Word} (hpc : u.pc = s.pc)
    (hflags : u.flags = s.flags) (hmem : u.mem = s.mem) (h : finish (storeValue u sf addr v) = .next t) :
    TransferLeaves s t := by
  rw [finish_storeValue] at h
  split at h <;> cases h
  exact ⟨⟨by simp [hpc], by simp [hflags]⟩, .inr ⟨sf, addr.toNat, v, ‹_›, by simp [hmem]⟩⟩

theorem transferLeaves_of_execLdrPost {s t : State} {sf : Width} {simm9 : BitVec 9} {xn rt : RegIdx}
    (h : execLdrPost sf simm9 xn rt s = .next t) : TransferLeaves s t := by
  rw [execLdrPost_eq] at h
  split at h <;> cases h
  exact ⟨by split <;> simp [Advances], .inl (by split <;> simp)⟩

theorem transferLeaves_of_execStrPost {s t : State} {sf : Width} {simm9 : BitVec 9} {xn rt : RegIdx}
    (h : execStrPost sf simm9 xn rt s = .next t) : TransferLeaves s t := by
  rw [execStrPost_eq] at h
  split at h <;> cases h
  exact ⟨by simp [Advances], .inr ⟨sf, (s.x xn).toNat, s.x rt, ‹_›, by simp⟩⟩

/-- Every load and store that completes leaves what a transfer leaves. -/
theorem exec_transferLeaves {i : Instr} {s t : State} (ht : i.isTransfer = true) (h : exec i s = .next t) :
    TransferLeaves s t := by
  cases i with
  | ldrImm | ldrReg | ldrLit => exact transferLeaves_of_loadInto rfl rfl rfl h
  | ldrPre => exact transferLeaves_of_loadInto (by simp) (by simp) (by simp) h
  | strImm | strReg => exact transferLeaves_of_storeValue rfl rfl rfl h
  | strPre => exact transferLeaves_of_storeValue (by simp) (by simp) (by simp) h
  | ldrPost => exact transferLeaves_of_execLdrPost h
  | strPost => exact transferLeaves_of_execStrPost h
  | _ => cases ht

/-- What the instruction `i` run from `s` leaves in the state `t` it answers (R40, R163, R166, R240). -/
structure Leaves (i : Instr) (s t : State) : Prop where
  mem : StoredAtMostOnce s.mem t.mem
  flags : i.writesFlags = false → t.flags = s.flags
  pc : i.isBranch = false → i ≠ .halt → t.pc = s.pc + 4#64
  haltPc : i = .halt → t.pc = s.pc

/-- Every instruction that is no load or store completes without a store. -/
theorem exec_leaves_of_not_transfer {i : Instr} {s t : State} (ht : i.isTransfer = false) (h : exec i s = .next t) :
    Leaves i s t := by
  cases i with
  | ldrImm | strImm | ldrReg | strReg | ldrPre | strPre | ldrPost | strPost | ldrLit => cases ht
  | halt => cases h; exact ⟨.inl rfl, fun _ => rfl, fun _ hne => absurd rfl hne, fun _ => rfl⟩
  | b | br | bEq | bNe | bGe | bLt | bGt | bLe | bAl =>
    cases h; exact ⟨.inl (by simp), fun _ => by simp, fun hb => (by cases hb), fun hi => (by cases hi)⟩
  | addsImm | subsImm | addsReg | subsReg | andsReg | bicsReg =>
    cases h; exact ⟨.inl (by simp), fun hw => (by cases hw), fun _ _ => by simp, fun hi => (by cases hi)⟩
  | _ => cases h; exact ⟨.inl (by simp), fun _ => by simp, fun _ _ => by simp, fun hi => (by cases hi)⟩

/-- All that a completed instruction leaves in memory, flags and pc. -/
theorem exec_leaves {i : Instr} {s t : State} (h : exec i s = .next t) : Leaves i s t := by
  cases ht : i.isTransfer with
  | false => exact exec_leaves_of_not_transfer ht h
  | true =>
    obtain ⟨⟨hpc, hflags⟩, hmem⟩ := exec_transferLeaves ht h
    exact ⟨hmem, fun _ => hflags, fun _ _ => hpc, fun hi => by rw [hi] at ht; cases ht⟩

/-- Settles O38: the flags clause of `exec_leaves`. -/
theorem onlyFlagSettingInstructionsWriteFlags : Obligations.OnlyFlagSettingInstructionsWriteFlags :=
  fun _ _ _ hi h => (exec_leaves h).flags hi

/-- Settles O39: the two pc clauses of `exec_leaves`. -/
theorem everyOtherInstructionAdvancesPcByFour : Obligations.EveryOtherInstructionAdvancesPcByFour :=
  fun _ _ _ h => ⟨(exec_leaves h).pc, (exec_leaves h).haltPc⟩

/-! ### One step, and the invariant -/

/-- A core that is not Running is refused (R45, R160). -/
theorem step_of_not_running {s : State} (h : s.status ≠ .running) : step s = .refused .notRunning := by
  cases hs : s.status with
  | running => exact absurd hs h
  | halted | faulted => simp [step, hs]

/-- A Running core runs the instruction it fetches and decodes (R167). -/
theorem step_of_fetchDecode_ok {s : State} {i : Instr} (hs : s.status = .running) (h : fetchDecode s = .ok i) :
    step s = exec i s := by
  simp [step, hs, h]

/-- A Running core raises the error of the fetch or of the decoder (R167). -/
theorem step_of_fetchDecode_error {s : State} {e : Fault} (hs : s.status = .running) (h : fetchDecode s = .error e) :
    step s = .fault e := by
  simp [step, hs, h, raise]

/-- A step that completes ran the fetched and decoded instruction of a Running core. -/
theorem step_eq_next {s t : State} (h : step s = .next t) :
    s.status = .running ∧ ∃ i, fetchDecode s = .ok i ∧ exec i s = .next t := by
  by_cases hs : s.status = .running
  · cases hf : fetchDecode s with
    | ok i => exact ⟨hs, i, rfl, step_of_fetchDecode_ok hs hf ▸ h⟩
    | error e => rw [step_of_fetchDecode_error hs hf] at h; cases h
  · rw [step_of_not_running hs] at h; cases h

/-- One store in range keeps the canonical form and the address space. -/
theorem StoredAtMostOnce.keeps_wf_inSpace {m m' : Memory} (h : StoredAtMostOnce m m') (hwf : Memory.wf m)
    (hspace : Memory.inSpace m) : Memory.wf m' ∧ Memory.inSpace m' := by
  obtain rfl | ⟨sf, a, v, ha, rfl⟩ := h
  · exact ⟨hwf, hspace⟩
  · exact ⟨Memory.storeWidth_wf sf a v hwf, Memory.storeWidth_inSpace sf v hspace ha⟩

/-- Settles O48: an instruction stores at most once and in range, and such a store keeps the invariant. -/
theorem everyStepKeepsTheMemoryCanonical : Obligations.EveryStepKeepsTheMemoryCanonical := by
  intro s t ⟨hwf, hspace⟩ h
  obtain ⟨-, i, -, hexec⟩ := step_eq_next h
  exact (exec_leaves hexec).mem.keeps_wf_inSpace hwf hspace

/-- Settles O46, by the two other run statuses. -/
theorem stoppedCoreTakesNoStep : Obligations.StoppedCoreTakesNoStep :=
  fun _ => step_of_not_running

end Sys2Proof.Machine

/-!
SUPPORT. Two runs of one instruction from states that differ in their flags only.
-/

namespace Sys2Proof.Machine

/-! ### The updates commute with a change of the flags -/

theorem State.setX_setFlags (s : State) (f : PState) (i : RegIdx) (v : Word) :
    (s.setFlags f).setX i v = (s.setX i v).setFlags f := by
  unfold State.setX; split <;> rfl
theorem afterShift_setFlags (s : State) (f : PState) (sf : Width) (shift : ShiftType) (operand : BitVec 6) :
    afterShift (s.setFlags f) sf shift operand = (afterShift s sf shift operand).setFlags f := by
  unfold afterShift; split <;> rfl
theorem afterOverlap_setFlags (s : State) (f : PState) (xn rt : RegIdx) :
    afterOverlap (s.setFlags f) xn rt = (afterOverlap s xn rt).setFlags f := by
  unfold afterOverlap; split <;> rfl

/-! ### The outcome with other flags -/

/-- The outcome whose next state has other flags. -/
def outcomeSetFlags (f : PState) : Host.Outcome State Fault Refusal → Host.Outcome State Fault Refusal
  | .next t => .next (t.setFlags f)
  | .fault e => .fault e
  | .refused q => .refused q

/-- A register write that ends an instruction, from a state with other flags. -/
theorem next_setX_setFlags {u u' : State} {f : PState} (hu : u' = u.setFlags f) (rd : RegIdx) (v : Word) :
    Host.Outcome.next (u'.setX rd v).advance = outcomeSetFlags f (.next (u.setX rd v).advance) := by
  rw [hu, State.setX_setFlags]; rfl

/-- The same after a flag write, which overwrites the other flags (R40). -/
theorem next_setX_setFlags_setFlags {u u' : State} {f : PState} (hu : u' = u.setFlags f) (g : PState) (rd : RegIdx)
    (v : Word) : Host.Outcome.next (φ := Fault) (ρ := Refusal) ((u'.setFlags g).setX rd v).advance =
      .next ((u.setFlags g).setX rd v).advance := by
  rw [hu]; rfl

theorem finish_loadInto_setFlags {u u' : State} {f : PState} (hu : u' = u.setFlags f) (sf : Width) (addr : Word)
    (rt : RegIdx) : finish (loadInto u' sf addr rt) = outcomeSetFlags f (finish (loadInto u sf addr rt)) := by
  rw [hu, finish_loadInto, finish_loadInto, State.setX_setFlags]
  split <;> rfl

theorem finish_storeValue_setFlags {u u' : State} {f : PState} (hu : u' = u.setFlags f) (sf : Width) (addr v : Word) :
    finish (storeValue u' sf addr v) = outcomeSetFlags f (finish (storeValue u sf addr v)) := by
  rw [hu, finish_storeValue, finish_storeValue]
  split <;> rfl

theorem execLdrPost_setFlags (sf : Width) (simm9 : BitVec 9) (xn rt : RegIdx) (s : State) (f : PState) :
    execLdrPost sf simm9 xn rt (s.setFlags f) = outcomeSetFlags f (execLdrPost sf simm9 xn rt s) := by
  rw [execLdrPost_eq, execLdrPost_eq, State.setFlags_x, afterOverlap_setFlags]
  split
  · split
    · exact next_setX_setFlags (by rfl) _ _
    · exact next_setX_setFlags (State.setX_setFlags _ _ _ _) _ _
  · rfl

theorem execStrPost_setFlags (sf : Width) (simm9 : BitVec 9) (xn rt : RegIdx) (s : State) (f : PState) :
    execStrPost sf simm9 xn rt (s.setFlags f) = outcomeSetFlags f (execStrPost sf simm9 xn rt s) := by
  rw [execStrPost_eq, execStrPost_eq, State.setFlags_x]
  split
  · exact next_setX_setFlags (by rfl) _ _
  · rfl

/-! ### exec from a state with other flags -/

/-- A flag-setting instruction overwrites all four flags, so it answers the very same outcome (R40). -/
theorem exec_setFlags_of_writesFlags {i : Instr} (h : i.writesFlags = true) (s : State) (f : PState) :
    exec i (s.setFlags f) = exec i s := by
  cases i with
  | addsImm | subsImm => rfl
  | addsReg | subsReg | andsReg | bicsReg =>
    exact next_setX_setFlags_setFlags (afterShift_setFlags _ _ _ _ _) _ _ _
  | _ => cases h

/-- Any other instruction but the conditional branches hands the given flags on (R40, R41). -/
theorem exec_setFlags_of_keepsFlags {i : Instr} (hw : i.writesFlags = false) (hb : i.isBranchCond = false) (s : State)
    (f : PState) : exec i (s.setFlags f) = outcomeSetFlags f (exec i s) := by
  cases i with
  | addsImm | subsImm | addsReg | subsReg | andsReg | bicsReg => cases hw
  | bEq | bNe | bGe | bLt | bGt | bLe | bAl => cases hb
  | b | br | halt => rfl
  | ldrImm | ldrReg | ldrLit => exact finish_loadInto_setFlags rfl _ _ _
  | ldrPre => exact finish_loadInto_setFlags (State.setX_setFlags _ _ _ _) _ _ _
  | strImm | strReg => exact finish_storeValue_setFlags rfl _ _ _
  | strPre => exact finish_storeValue_setFlags (by rw [afterOverlap_setFlags, State.setX_setFlags]; rfl) _ _ _
  | ldrPost => exact execLdrPost_setFlags _ _ _ _ _ _
  | strPost => exact execStrPost_setFlags _ _ _ _ _ _
  | addImm | subImm | movn | movz | movk | madd | msub => exact next_setX_setFlags rfl _ _
  | _ => exact next_setX_setFlags (afterShift_setFlags _ _ _ _ _) _ _

theorem exec_condInstr (c : Cond) (simm19 : BitVec 19) (s : State) :
    exec (condInstr c simm19) s = .next (branchIf c simm19 s) := by
  cases c <;> rfl

/-- No condition reads `C` (R271). -/
theorem condHolds_setCarry (c : Cond) (f : PState) (carry : Bool) : condHolds c { f with c := carry } = condHolds c f := by
  cases c <;> rfl

/-- A branch whose condition holds under both settings of the flags or under neither goes the same way. -/
theorem branchIf_setFlags {c : Cond} {s : State} {f : PState} (h : condHolds c f = condHolds c s.flags)
    (simm19 : BitVec 19) : branchIf c simm19 (s.setFlags f) = (branchIf c simm19 s).setFlags f := by
  rw [branchIf, branchIf, State.setFlags_flags, h]
  split <;> rfl

/-- Settles O40: the flag-setting instructions overwrite the flags, the others hand them on, and no condition reads `C`. -/
theorem onlyConditionalBranchesReadFlags : Obligations.OnlyConditionalBranchesReadFlags := by
  refine ⟨fun i s f hb => ?_, fun c simm19 s t carry h => ?_⟩
  · cases hw : i.writesFlags with
    | true =>
      rw [exec_setFlags_of_writesFlags hw]
      exact ⟨fun t h => h, fun e h => h⟩
    | false =>
      rw [exec_setFlags_of_keepsFlags hw hb]
      exact ⟨fun t h => by rw [h]; rfl, fun e h => by rw [h]; rfl⟩
  · rw [exec_condInstr] at h ⊢
    cases h
    rw [branchIf_setFlags (condHolds_setCarry c s.flags carry)]

end Sys2Proof.Machine

/-!
SUPPORT. The single step of a Running core: HALT is the one word that decodes to the HALT instruction, and it alone ends a
step in another run status.
-/

namespace Sys2Proof

/-! ### No format decodes to HALT -/

theorem decodeBranch_ne_halt (w : InstrWord) : decodeBranch w ≠ .ok .halt := by
  simp only [decodeBranch]; split_ifs <;> simp

theorem decodeDpImmediate_ne_halt (w : InstrWord) : decodeDpImmediate w ≠ .ok .halt := by
  simp only [decodeDpImmediate, decodeImmArith, decodeImmWide]; split_ifs <;> simp

theorem decodeDpRegister_ne_halt (w : InstrWord) : decodeDpRegister w ≠ .ok .halt := by
  simp only [decodeDpRegister, decodeRegArith, decodeRegLogic, decodeRegMultiply]; split_ifs <;> simp

theorem decodeTransfer_ne_halt (w : InstrWord) : decodeTransfer w ≠ .ok .halt := by
  simp only [decodeTransfer, decodePrePost]; split_ifs <;> simp

/-- The HALT sentinel is the one word of HALT (R141, R163). -/
theorem decodeWord_eq_halt_iff {w : InstrWord} : decodeWord w = .ok .halt ↔ w = haltWord := by
  unfold decodeWord
  split_ifs with hw
  · simp [hw]
  all_goals simp [hw, decodeBranch_ne_halt, decodeDpImmediate_ne_halt, decodeDpRegister_ne_halt, decodeTransfer_ne_halt]

end Sys2Proof

namespace Sys2Proof.Machine

theorem fetchDecode_eq_halt_iff {s : State} : fetchDecode s = .ok .halt ↔ fetch s = .ok haltWord := by
  unfold fetchDecode
  cases hf : fetch s with
  | error e => simp
  | ok w =>
    cases hd : decodeWord w with
    | error r =>
      have hne : w ≠ haltWord := fun hw => by rw [decodeWord_eq_halt_iff.mpr hw] at hd; cases hd
      simp [hne, hd]
    | ok i => simp [← decodeWord_eq_halt_iff, hd]

/-- How a step of a Running core ends: HALT was fetched and the status is Halted, another instruction ran and the status is
still Running, or an error was raised. -/
theorem step_cases {s : State} (hs : s.status = .running) :
    (fetch s = .ok haltWord ∧ step s = .next (s.setStatus .halted)) ∨
    (fetch s ≠ .ok haltWord ∧ ((∃ t, step s = .next t ∧ t.status = .running) ∨ ∃ e, step s = .fault e)) := by
  rw [Ne, ← fetchDecode_eq_halt_iff]
  cases hf : fetchDecode s with
  | error e => exact .inr ⟨by simp, .inr ⟨e, step_of_fetchDecode_error hs hf⟩⟩
  | ok i =>
    rw [step_of_fetchDecode_ok hs hf]
    by_cases hi : i = .halt
    · subst hi; exact .inl ⟨rfl, rfl⟩
    · refine .inr ⟨by simpa using hi, ?_⟩
      obtain ⟨hhalt, -⟩ | ⟨t, hn, hstatus, -⟩ | ⟨-, addr, sf, he, -⟩ := exec_cases i s
      · exact absurd hhalt hi
      · exact .inl ⟨t, hn, hstatus.trans hs⟩
      · exact .inr ⟨_, he⟩

theorem stepInstruction_of_next {s t : State} (h : step s = .next t) : stepInstruction s = (t, t.status) := by
  rw [stepInstruction, h]

theorem stepInstruction_of_fault {s : State} {e : Fault} (h : step s = .fault e) :
    stepInstruction s = (faultedState s e, .faulted e) := by
  rw [stepInstruction, h]

/-- Settles O58, by the three ways a step of a Running core ends. -/
theorem singleStepReportsTheRunStatus : Obligations.SingleStepReportsTheRunStatus := by
  intro s hs
  rw [show (0x8A000000#32 : InstrWord) = haltWord from rfl]
  obtain ⟨hf, hn⟩ | ⟨hf, ⟨t, hn, hstatus⟩ | ⟨e, he⟩⟩ := step_cases hs
  · simp [stepInstruction_of_next hn, hn, hf]
  · simp [stepInstruction_of_next hn, hn, hf, hstatus]
  · simp [stepInstruction_of_fault he, he, hf]

end Sys2Proof.Machine

/-!
SUPPORT. A canonical memory is determined by its bytes; reset, the image load and the host's memory accessors.
-/

namespace Sys2Proof.Machine

/-! ### The canonical form -/

/-- The cells of a canonical memory are the addresses that do not read 0, with what they read. -/
theorem Memory.mem_iff_read {m : Memory} (h : Memory.wf m) (cell : Host.Cell) :
    cell ∈ m ↔ cell.2 ≠ 0#8 ∧ Memory.read m cell.1 = cell.2 := by
  induction m with
  | nil => exact iff_of_false List.not_mem_nil fun ⟨hv, hr⟩ => hv hr.symm
  | cons head rest ih =>
    obtain ⟨hsorted, hzero⟩ := h
    rw [List.pairwise_cons] at hsorted
    obtain ⟨hhead, hsorted⟩ := hsorted
    have ih := ih ⟨hsorted, fun c hc => hzero c (by simp [hc])⟩
    rw [List.mem_cons, Memory.read]
    split
    · rename_i haddr
      have hnot : cell ∉ rest := fun hc => absurd (hhead cell hc) (by omega)
      simp only [hnot, or_false]
      constructor
      · rintro rfl
        exact ⟨hzero _ (by simp), rfl⟩
      · exact fun ⟨_, hv⟩ => Prod.ext haddr.symm hv.symm
    · rename_i haddr
      rw [← ih]
      exact or_iff_right fun hc => haddr (by rw [hc])

/-- Settles O55: rising lists with the same cells are equal, and the bytes say which cells are listed. -/
theorem canonicalMemoriesWithEqualBytesAreEqual : Obligations.CanonicalMemoriesWithEqualBytesAreEqual := by
  intro m m' h h' hread
  have : Std.Irrefl fun p q : Host.Cell => p.1 < q.1 := ⟨fun p => Nat.lt_irrefl p.1⟩
  have : Std.Antisymm fun p q : Host.Cell => p.1 < q.1 := ⟨fun p q hpq hqp => absurd hqp (Nat.lt_asymm hpq)⟩
  refine h.1.eq_of_mem_iff h'.1 fun cell => ?_
  rw [Memory.mem_iff_read h, Memory.mem_iff_read h', hread]

/-! ### Reset and image load -/

theorem resetWith_x (p : Params) (i : RegIdx) : (State.resetWith p).x i = 0#64 := by
  unfold State.x
  split
  · exact Vector.getElem_replicate _
  · rfl

/-- The empty memory of reset meets the invariant. -/
theorem resetWith_inv (p : Params) : (State.resetWith p).Inv :=
  ⟨⟨List.Pairwise.nil, by simp [State.resetWith]⟩, by simp [State.resetWith]⟩

/-- Settles O49, field by field. -/
theorem resetStateHasTheStatedValues : Obligations.ResetStateHasTheStatedValues :=
  ⟨fun p => ⟨resetWith_x p, rfl, rfl, fun _ => rfl, rfl, resetWith_inv p⟩, rfl⟩

/-- A copied byte is read where it was put; past the last one memory is as before (R331). -/
theorem Memory.read_copy (m : Memory) (a k : Nat) (bytes : List Byte) :
    Memory.read (Memory.copy m a bytes) (a + k) = bytes.getD k (Memory.read m (a + k)) := by
  induction bytes generalizing m a k with
  | nil => rfl
  | cons byte rest ih =>
    cases k with
    | zero => rw [Memory.copy, Memory.read_copy_outside _ _ _ _ (by omega)]; simp [Memory.read_write]
    | succ k =>
      have haddr : a + (k + 1) = a + 1 + k := by omega
      rw [Memory.copy, haddr, ih, Memory.read_write, if_neg (by omega), List.getD_cons_succ]

theorem boot_of_le (p : Params) {image : List Byte} (h : image.length ≤ Config.memSize) :
    boot p image = .done () ((State.resetWith p).setMem (Memory.copy [] 0 image)) := by
  rw [boot, loadImage, if_pos h]; rfl

theorem boot_of_lt (p : Params) {image : List Byte} (h : Config.memSize < image.length) :
    boot p image = .raised (.imageLoadError image.length)
      (faultedState (State.resetWith p) (.imageLoadError image.length)) := by
  rw [boot, loadImage, if_neg (Nat.not_le_of_lt h)]; rfl

/-- Settles O56, by the two sides of the length check. -/
theorem imageLoadCopiesVerbatimAtZero : Obligations.ImageLoadCopiesVerbatimAtZero := by
  refine fun p image => ⟨fun h => ⟨_, boot_of_le p h, rfl, rfl, ?_, fun k => ?_, resetWith_x p, rfl, rfl⟩,
    fun h => ⟨_, boot_of_lt p h, rfl⟩⟩
  · obtain ⟨hwf, hspace⟩ := resetWith_inv p
    exact ⟨Memory.copy_wf 0 image hwf, Memory.copy_inSpace image hspace (by simpa [inBounds] using h)⟩
  · simpa [Memory.read] using Memory.read_copy [] 0 k image

/-! ### The memory accessors -/

theorem store64_keepsMemBut (s : State) (a : Nat) (v : BitVec 64) :
    KeepsMemBut a 8 s (s.setMem (Memory.store64 s.mem a v)) :=
  storeWidth_keepsMemBut s .w64 a v

theorem store32_keepsMemBut (s : State) (a : Nat) (u : BitVec 32) :
    KeepsMemBut a 4 s (s.setMem (Memory.store32 s.mem a u)) := by
  have h := storeWidth_keepsMemBut s .w32 a (u.setWidth 64)
  rwa [Memory.storeWidth, BitVec.setWidth_setWidth_of_le _ (by decide), BitVec.setWidth_eq] at h

/-- Settles O24, by the two sides of the bounds check of each size. -/
theorem memoryAccessorsCheckBounds : Obligations.MemoryAccessorsCheckBounds := by
  intro s a v u
  refine ⟨fun h => ⟨⟨_, withHostBounds_of_le s _ h⟩, _, withHostBounds_of_le s _ h, ?_, store64_keepsMemBut s _ v,
      fun _ _ => rfl, rfl, rfl, rfl, by simp⟩,
    fun h => ⟨_, withHostBounds_of_lt s _ h, withHostBounds_of_lt s _ h, afterHostRaise_spec s _⟩,
    fun h => ⟨⟨_, withHostBounds_of_le s _ h⟩, _, withHostBounds_of_le s _ h, ?_, store32_keepsMemBut s _ u,
      fun _ _ => rfl, rfl, rfl, rfl, by simp⟩,
    fun h => ⟨_, withHostBounds_of_lt s _ h, withHostBounds_of_lt s _ h, afterHostRaise_spec s _⟩⟩
  · rw [hostLoad64, withHostBounds_of_le _ _ h, State.setMem_mem, Memory.load64_store64_self]
  · rw [hostLoad32, withHostBounds_of_le _ _ h, State.setMem_mem, Memory.load32_store32_self]

end Sys2Proof.Machine

/-!
SUPPORT. The fetch by the branches of its two checks, the errors of a step that come from them, and the fetch of a word that
the instruction before has stored.
-/

namespace Sys2Proof.Machine

/-! ### The fetch and its errors -/

section
variable {s : State}

/-- The alignment error comes before the bounds check (R67, R167). -/
theorem fetch_of_misaligned (hpar : s.params.fetchAlignFault = true) (hpc : s.pc.toNat % 4 ≠ 0) :
    fetch s = .error (.fetchAlignError s.pc) :=
  if_pos ⟨hpc, hpar⟩

/-- Without an alignment error the fetch reads the word at pc when it is in range, and else gives BoundsError. -/
theorem fetch_eq_of_aligned (ha : s.params.fetchAlignFault = true → s.pc.toNat % 4 = 0) :
    fetch s =
      if s.pc.toNat + 4 ≤ Config.memSize then .ok (Memory.load32 s.mem s.pc.toNat)
      else .error (.boundsError s.pc.toNat 4 s.pc) :=
  if_neg fun ⟨hpc, hpar⟩ => hpc (ha hpar)

theorem fetchDecode_of_fetch_error {e : Fault} (h : fetch s = .error e) : fetchDecode s = .error e := by
  rw [fetchDecode, h]

theorem step_of_fetch_error {e : Fault} (hs : s.status = .running) (h : fetch s = .error e) : step s = .fault e :=
  step_of_fetchDecode_error hs (fetchDecode_of_fetch_error h)

end

/-- Settles O44, by the two errors of the fetch. -/
theorem fetchErrorsComeInOrder : Obligations.FetchErrorsComeInOrder := by
  refine fun s hs => ⟨fun ⟨hpar, hpc⟩ => step_of_fetch_error hs (fetch_of_misaligned hpar hpc), fun ⟨hpass, hb⟩ => ?_⟩
  have ha : s.params.fetchAlignFault = true → s.pc.toNat % 4 = 0 := fun hpar => hpass.resolve_left (by simp [hpar])
  exact step_of_fetch_error hs (by rw [fetch_eq_of_aligned ha, if_neg (Nat.not_le_of_lt hb)])

/-! ### The fetch of a stored word -/

/-- The word at the address of a store of either size is the low word of the stored value (R63, R240). -/
theorem Memory.load32_storeWidth (m : Memory) (sf : Width) (a : Nat) (v : Word) :
    Memory.load32 (Memory.storeWidth m sf a v) a = v.setWidth 32 := by
  cases sf with
  | w32 => exact Memory.load32_store32_self m a _
  | w64 => exact (Memory.load32_store64_low m a v).trans (BitVec.setWidth_eq_extractLsb' (by decide)).symm

theorem four_le_bytes (sf : Width) : 4 ≤ sf.bytes := by
  cases sf <;> decide

/-- A store in range at the pc of the state after is what that state fetches (R62, D18). -/
theorem fetch_of_stored_at_pc {t : State} {m : Memory} {sf : Width} {addr v : Word}
    (hmem : t.mem = Memory.storeWidth m sf addr.toNat v) (hpc : addr = t.pc)
    (hb : addr.toNat + sf.bytes ≤ Config.memSize) (ha : t.params.fetchAlignFault = true → t.pc.toNat % 4 = 0) :
    fetch t = .ok (v.setWidth 32) := by
  subst hpc
  have hfit : t.pc.toNat + 4 ≤ Config.memSize := (Nat.add_le_add_left (four_le_bytes sf) _).trans hb
  rw [fetch_eq_of_aligned ha, if_pos hfit, hmem, Memory.load32_storeWidth]

/-- A store to the next instruction's address that ends an instruction is fetched next (R62, D18). -/
theorem fetch_of_finish_storeValue {s t : State} {sf : Width} {addr v : Word}
    (h : finish (storeValue s sf addr v) = .next t) (haddr : addr = s.pc + 4#64)
    (ha : t.params.fetchAlignFault = true → t.pc.toNat % 4 = 0) : fetch t = .ok (v.setWidth 32) := by
  rw [finish_storeValue] at h
  split at h <;> cases h
  exact fetch_of_stored_at_pc rfl (by simp [haddr]) ‹_› ha

/-- The value STR (pre-index) stores: on overlap the drawn one (R247, D11). -/
theorem preStoreValue_eq (s : State) (addr : Word) (xn rt : RegIdx) :
    preStoreValue s addr xn rt =
      if rt = xn ∧ rt ≠ 31#5 then overlapStored (Config.wbStore s.draws) (s.x xn) addr else s.x rt := by
  rw [preStoreValue]
  by_cases ho : isOverlap xn rt = true
  · rw [if_pos ho, if_pos (isOverlap_iff.mp ho)]; rfl
  · rw [if_neg ho, if_neg fun c => ho (isOverlap_iff.mpr c)]

/-- STR (post-index) stores at the old base, so its write-back does not move what is fetched (R249). -/
theorem fetch_of_execStrPost {sf : Width} {simm9 : BitVec 9} {xn rt : RegIdx} {s t : State}
    (h : execStrPost sf simm9 xn rt s = .next t) (haddr : s.x xn = s.pc + 4#64)
    (ha : t.params.fetchAlignFault = true → t.pc.toNat % 4 = 0) : fetch t = .ok ((s.x rt).setWidth 32) := by
  rw [execStrPost_eq] at h
  split at h <;> cases h
  exact fetch_of_stored_at_pc (State.setX_mem _ _ _) (by simp [haddr]) ‹_› ha

theorem exec_params {i : Instr} {s t : State} (h : exec i s = .next t) : t.params = s.params := by
  obtain ⟨-, hparams, -⟩ := onlyHaltChangesTheRunStatus i s t h
  exact hparams

/-- Settles O47: three forms end with the store, and STR (post-index) with the write-back after it. The alignment setting of
the next fetch is that of the state before, since no instruction changes the parameters. -/
theorem storeIsSeenByTheNextFetch : Obligations.StoreIsSeenByTheNextFetch := by
  refine ⟨fun sf imm12 xn rt s t h haddr ha => ?_, fun sf xm xn rt s t h haddr ha => ?_,
    fun sf simm9 xn rt s t h haddr ha => ?_, fun sf simm9 xn rt s t h haddr ha => ?_⟩ <;>
    rw [← exec_params h] at ha
  · exact fetch_of_finish_storeValue h haddr ha
  · exact fetch_of_finish_storeValue h haddr ha
  · rw [← preStoreValue_eq]
    exact fetch_of_finish_storeValue h (by simpa using haddr) ha
  · exact fetch_of_execStrPost h haddr ha

end Sys2Proof.Machine

/-!
SUPPORT. The fields of a word: a field of a concatenation, adjacent fields as one, the fields an opcode-table row fixes,
and the field values in both directions (R9, R130 to R132).
-/

namespace Sys2Proof

/-! ### Fields and concatenation

In the encoder the widths of a concatenation are sums of numerals, which `simp` does not index as `m + n`; `no_index`
lets the rules fire on them. -/

section
variable {m n k lo hi len len' : Nat} {w : BitVec k} {high : BitVec m} {low : BitVec n}

@[simp] theorem bitField_append_low (h : lo + len ≤ n) :
    bitField (no_index (high ++ low)) lo len = bitField low lo len :=
  BitVec.extractLsb'_append_eq_of_add_le h

@[simp] theorem bitField_append_high (h : n ≤ lo) :
    bitField (no_index (high ++ low)) lo len = bitField high (lo - n) len :=
  BitVec.extractLsb'_append_eq_of_le h

@[simp] theorem bitField_whole : bitField w 0 k = w :=
  BitVec.extractLsb'_eq_self

@[simp] theorem bitField_ofNat (x : Nat) :
    bitField (BitVec.ofNat n x) lo len = BitVec.ofNat len ((x % 2 ^ n) >>> lo) := by
  simp [bitField, BitVec.extractLsb']

theorem bitField_append_bitField (h : hi = lo + len) :
    no_index (bitField w hi len' ++ bitField w lo len) = bitField w lo (len' + len) :=
  BitVec.extractLsb'_append_extractLsb'_eq_extractLsb' h

/-- A field is known when its high and its low part are. -/
theorem bitField_of_parts (h : hi = lo + n) (hhigh : bitField w hi m = high) (hlow : bitField w lo n = low) :
    bitField w lo (m + n) = high ++ low := by
  rw [← bitField_append_bitField h, hhigh, hlow]

end

/-! ### The fields that a row fixes -/

/-- A word that matches a row has the row's value in every field the mask covers. -/
theorem bitField_of_matchesWord {r : OpcodeRow} {w : InstrWord} (h : r.matchesWord w = true) (lo len : Nat)
    (hmask : bitField r.mask lo len = BitVec.allOnes len) : bitField w lo len = bitField r.value lo len := by
  have hand : w &&& r.mask = r.value := beq_iff_eq.mp h
  calc bitField w lo len
      = bitField w lo len &&& bitField r.mask lo len := by rw [hmask, BitVec.and_allOnes]
    _ = bitField r.value lo len := by rw [← hand]; exact BitVec.extractLsb'_and.symm

/-! ### Field values -/

@[simp] theorem widthOfBit_widthBit (sf : Width) : widthOfBit (widthBit sf) = sf := by cases sf <;> rfl
@[simp] theorem shiftOfBits_shiftBits (shift : ShiftType) : shiftOfBits (shiftBits shift) = shift := by
  cases shift <;> rfl
@[simp] theorem shBit_beq_one (sh : Bool) : (shBit sh == 1#1) = sh := by cases sh <;> rfl

@[simp] theorem widthBit_widthOfBit : ∀ v : BitVec 1, widthBit (widthOfBit v) = v := by decide
@[simp] theorem shiftBits_shiftOfBits : ∀ v : BitVec 2, shiftBits (shiftOfBits v) = v := by decide
@[simp] theorem shBit_beq : ∀ v : BitVec 1, shBit (v == 1#1) = v := by decide

theorem bit_eq_one_of_ne : ∀ {v : BitVec 1}, v ≠ 0#1 → v = 1#1 := by decide
theorem bit_eq_zero_of_ne : ∀ {v : BitVec 1}, v ≠ 1#1 → v = 0#1 := by decide
theorem twoBits_eq_three_of_ne : ∀ {v : BitVec 2}, v ≠ 0b00#2 → v ≠ 0b01#2 → v ≠ 0b10#2 → v = 0b11#2 := by
  decide

end Sys2Proof

/-!
SUPPORT. One lemma per encoding format: the encoder puts the fields of a word together again, when the word has the
fixed bits of the format (R104 to R118).
-/

namespace Sys2Proof

section
variable {w : InstrWord}

theorem encodeImmArith_bitField {op : BitVec 2} (hop : bitField w 29 2 = op) (hfix : bitField w 23 6 = 0b100010#6) :
    encodeImmArith op (widthOfBit (bitField w 31 1)) (bitField w 22 1 == 1#1) (bitField w 10 12) (bitField w 5 5)
      (bitField w 0 5) = w := by
  have layout : (bitField w 31 1 ++ bitField w 29 2 ++ bitField w 23 6 ++ bitField w 22 1 ++ bitField w 10 12 ++
      bitField w 5 5 ++ bitField w 0 5 : BitVec 32) = w := by
    simp only [bitField_append_bitField, bitField_whole, Nat.reduceAdd]
  refine Eq.trans ?_ layout
  simp only [encodeImmArith, hop, hfix, widthBit_widthOfBit, shBit_beq]

theorem encodeImmWide_bitField {opc : BitVec 2} (hopc : bitField w 29 2 = opc) (hfix : bitField w 23 6 = 0b100101#6) :
    encodeImmWide opc (widthOfBit (bitField w 31 1)) (bitField w 21 2) (bitField w 5 16) (bitField w 0 5) = w := by
  have layout : (bitField w 31 1 ++ bitField w 29 2 ++ bitField w 23 6 ++ bitField w 21 2 ++ bitField w 5 16 ++
      bitField w 0 5 : BitVec 32) = w := by
    simp only [bitField_append_bitField, bitField_whole, Nat.reduceAdd]
  refine Eq.trans ?_ layout
  simp only [encodeImmWide, hopc, hfix, widthBit_widthOfBit]

theorem encodeShifted_bitField {op : BitVec 2} {arith inv : BitVec 1} (hop : bitField w 29 2 = op)
    (hfix : bitField w 25 4 = 0b0101#4) (harith : bitField w 24 1 = arith) (hinv : bitField w 21 1 = inv) :
    encodeShifted op arith inv (widthOfBit (bitField w 31 1)) (shiftOfBits (bitField w 22 2)) (bitField w 16 5)
      (bitField w 10 6) (bitField w 5 5) (bitField w 0 5) = w := by
  have layout : (bitField w 31 1 ++ bitField w 29 2 ++ bitField w 25 4 ++ bitField w 24 1 ++ bitField w 22 2 ++
      bitField w 21 1 ++ bitField w 16 5 ++ bitField w 10 6 ++ bitField w 5 5 ++ bitField w 0 5 : BitVec 32) = w := by
    simp only [bitField_append_bitField, bitField_whole, Nat.reduceAdd]
  refine Eq.trans ?_ layout
  simp only [encodeShifted, hop, hfix, harith, hinv, widthBit_widthOfBit, shiftBits_shiftOfBits]

theorem encodeMultiply_bitField {x : BitVec 1} (hfix : bitField w 21 10 = 0b0011011000#10)
    (hx : bitField w 15 1 = x) :
    encodeMultiply x (widthOfBit (bitField w 31 1)) (bitField w 16 5) (bitField w 10 5) (bitField w 5 5)
      (bitField w 0 5) = w := by
  have layout : (bitField w 31 1 ++ bitField w 21 10 ++ bitField w 16 5 ++ bitField w 15 1 ++ bitField w 10 5 ++
      bitField w 5 5 ++ bitField w 0 5 : BitVec 32) = w := by
    simp only [bitField_append_bitField, bitField_whole, Nat.reduceAdd]
  refine Eq.trans ?_ layout
  simp only [encodeMultiply, hfix, hx, widthBit_widthOfBit]

theorem encodeImmOffset_bitField {load : BitVec 1} (hbase : bitField w 31 1 = 1#1)
    (hfix : bitField w 23 7 = 0b1110010#7) (hload : bitField w 22 1 = load) :
    encodeImmOffset load (widthOfBit (bitField w 30 1)) (bitField w 10 12) (bitField w 5 5) (bitField w 0 5) = w := by
  have layout : (bitField w 31 1 ++ bitField w 30 1 ++ bitField w 23 7 ++ bitField w 22 1 ++ bitField w 10 12 ++
      bitField w 5 5 ++ bitField w 0 5 : BitVec 32) = w := by
    simp only [bitField_append_bitField, bitField_whole, Nat.reduceAdd]
  refine Eq.trans ?_ layout
  simp only [encodeImmOffset, hbase, hfix, hload, widthBit_widthOfBit]

theorem encodeRegOffset_bitField {load : BitVec 1} (hbase : bitField w 31 1 = 1#1)
    (hfix : bitField w 23 7 = 0b1110000#7) (hload : bitField w 22 1 = load) (hreg : bitField w 21 1 = 1#1)
    (hopt : bitField w 10 6 = 0b011010#6) :
    encodeRegOffset load (widthOfBit (bitField w 30 1)) (bitField w 16 5) (bitField w 5 5) (bitField w 0 5) = w := by
  have layout : (bitField w 31 1 ++ bitField w 30 1 ++ bitField w 23 7 ++ bitField w 22 1 ++ bitField w 21 1 ++
      bitField w 16 5 ++ bitField w 10 6 ++ bitField w 5 5 ++ bitField w 0 5 : BitVec 32) = w := by
    simp only [bitField_append_bitField, bitField_whole, Nat.reduceAdd]
  refine Eq.trans ?_ layout
  simp only [encodeRegOffset, hbase, hfix, hload, hreg, hopt, widthBit_widthOfBit]

theorem encodePrePost_bitField {load pre : BitVec 1} (hbase : bitField w 31 1 = 1#1)
    (hfix : bitField w 23 7 = 0b1110000#7) (hload : bitField w 22 1 = load) (hreg : bitField w 21 1 = 0#1)
    (hpre : bitField w 11 1 = pre) (hlow : bitField w 10 1 = 1#1) :
    encodePrePost load pre (widthOfBit (bitField w 30 1)) (bitField w 12 9) (bitField w 5 5) (bitField w 0 5) = w := by
  have layout : (bitField w 31 1 ++ bitField w 30 1 ++ bitField w 23 7 ++ bitField w 22 1 ++ bitField w 21 1 ++
      bitField w 12 9 ++ bitField w 11 1 ++ bitField w 10 1 ++ bitField w 5 5 ++ bitField w 0 5 : BitVec 32) = w := by
    simp only [bitField_append_bitField, bitField_whole, Nat.reduceAdd]
  refine Eq.trans ?_ layout
  simp only [encodePrePost, hbase, hfix, hload, hreg, hpre, hlow, widthBit_widthOfBit]

theorem encodeLoadLiteral_bitField (hbase : bitField w 31 1 = 0#1) (hfix : bitField w 24 6 = 0b011000#6) :
    encodeLoadLiteral (widthOfBit (bitField w 30 1)) (bitField w 5 19) (bitField w 0 5) = w := by
  have layout : (bitField w 31 1 ++ bitField w 30 1 ++ bitField w 24 6 ++ bitField w 5 19 ++
      bitField w 0 5 : BitVec 32) = w := by
    simp only [bitField_append_bitField, bitField_whole, Nat.reduceAdd]
  refine Eq.trans ?_ layout
  simp only [encodeLoadLiteral, hbase, hfix, widthBit_widthOfBit]

theorem encodeBranch_bitField (hfix : bitField w 26 6 = 0b000101#6) : encodeBranch (bitField w 0 26) = w := by
  have layout : (bitField w 26 6 ++ bitField w 0 26 : BitVec 32) = w := by
    simp only [bitField_append_bitField, bitField_whole, Nat.reduceAdd]
  refine Eq.trans ?_ layout
  simp only [encodeBranch, hfix]

theorem encodeBranchCond_bitField {cond : BitVec 4} (hfix : bitField w 24 8 = 0b01010100#8)
    (hlow : bitField w 4 1 = 0#1) (hcond : bitField w 0 4 = cond) : encodeBranchCond cond (bitField w 5 19) = w := by
  have layout : (bitField w 24 8 ++ bitField w 5 19 ++ bitField w 4 1 ++ bitField w 0 4 : BitVec 32) = w := by
    simp only [bitField_append_bitField, bitField_whole, Nat.reduceAdd]
  refine Eq.trans ?_ layout
  simp only [encodeBranchCond, hfix, hlow, hcond]

theorem encodeBranchReg_bitField (hfix : bitField w 10 22 = 0b1101011000011111000000#22)
    (hlow : bitField w 0 5 = 0b00000#5) : encodeBranchReg (bitField w 5 5) = w := by
  have layout : (bitField w 10 22 ++ bitField w 5 5 ++ bitField w 0 5 : BitVec 32) = w := by
    simp only [bitField_append_bitField, bitField_whole, Nat.reduceAdd]
  refine Eq.trans ?_ layout
  simp only [encodeBranchReg, hfix, hlow]

end

end Sys2Proof

/-!
SUPPORT. The decoder without its HALT test: it reads every word that matches a row as the row's instruction, so it gives
back every encoded instruction, and what it answers encodes the word (R136, R140, R143).
-/

namespace Sys2Proof

/-- The decoder after the HALT test: the four groups of R102. -/
def decodeByGroup (w : InstrWord) : Except DecodeReject Instr :=
  if bitField w 26 3 = 0b101#3 then decodeBranch w
  else if bitField w 26 3 = 0b100#3 then decodeDpImmediate w
  else if bitField w 25 3 = 0b101#3 then decodeDpRegister w
  else if bitField w 27 1 = 1#1 ∧ bitField w 25 1 = 0#1 then decodeTransfer w
  else .error .noGroup

theorem decodeWord_haltWord : decodeWord haltWord = .ok .halt :=
  if_pos rfl

theorem decodeWord_of_ne {w : InstrWord} (h : w ≠ haltWord) : decodeWord w = decodeByGroup w :=
  if_neg h

/-! ### A word that matches a row

The groups read the operands of the row's instruction off the word; off the word of an instruction these are its own. -/

/-- The instruction of the row of `j` whose operands are the fields of `w` (R104 to R118, R130 to R132). -/
def Instr.withFieldsOf (j : Instr) (w : InstrWord) : Instr :=
  let sf := widthOfBit (bitField w 31 1)
  let sh := bitField w 22 1 == 1#1
  let shift := shiftOfBits (bitField w 22 2)
  let rm := bitField w 16 5
  let operand := bitField w 10 6
  let rn := bitField w 5 5
  let rd := bitField w 0 5
  let size := widthOfBit (bitField w 30 1)
  match j with
  | .addImm .. => .addImm sf sh (bitField w 10 12) rn rd
  | .addsImm .. => .addsImm sf sh (bitField w 10 12) rn rd
  | .subImm .. => .subImm sf sh (bitField w 10 12) rn rd
  | .subsImm .. => .subsImm sf sh (bitField w 10 12) rn rd
  | .movn .. => .movn sf (bitField w 21 2) (bitField w 5 16) rd
  | .movz .. => .movz sf (bitField w 21 2) (bitField w 5 16) rd
  | .movk .. => .movk sf (bitField w 21 2) (bitField w 5 16) rd
  | .addReg .. => .addReg sf shift rm operand rn rd
  | .addsReg .. => .addsReg sf shift rm operand rn rd
  | .subReg .. => .subReg sf shift rm operand rn rd
  | .subsReg .. => .subsReg sf shift rm operand rn rd
  | .andReg .. => .andReg sf shift rm operand rn rd
  | .bicReg .. => .bicReg sf shift rm operand rn rd
  | .orrReg .. => .orrReg sf shift rm operand rn rd
  | .ornReg .. => .ornReg sf shift rm operand rn rd
  | .eorReg .. => .eorReg sf shift rm operand rn rd
  | .eonReg .. => .eonReg sf shift rm operand rn rd
  | .andsReg .. => .andsReg sf shift rm operand rn rd
  | .bicsReg .. => .bicsReg sf shift rm operand rn rd
  | .madd .. => .madd sf rm (bitField w 10 5) rn rd
  | .msub .. => .msub sf rm (bitField w 10 5) rn rd
  | .ldrImm .. => .ldrImm size (bitField w 10 12) rn rd
  | .strImm .. => .strImm size (bitField w 10 12) rn rd
  | .ldrReg .. => .ldrReg size rm rn rd
  | .strReg .. => .strReg size rm rn rd
  | .ldrPre .. => .ldrPre size (bitField w 12 9) rn rd
  | .strPre .. => .strPre size (bitField w 12 9) rn rd
  | .ldrPost .. => .ldrPost size (bitField w 12 9) rn rd
  | .strPost .. => .strPost size (bitField w 12 9) rn rd
  | .ldrLit .. => .ldrLit size (bitField w 5 19) rd
  | .b .. => .b (bitField w 0 26)
  | .bEq .. => .bEq (bitField w 5 19)
  | .bNe .. => .bNe (bitField w 5 19)
  | .bGe .. => .bGe (bitField w 5 19)
  | .bLt .. => .bLt (bitField w 5 19)
  | .bGt .. => .bGt (bitField w 5 19)
  | .bLe .. => .bLe (bitField w 5 19)
  | .bAl .. => .bAl (bitField w 5 19)
  | .br .. => .br rn
  | .halt => .halt

theorem opcodeRow_withFieldsOf (j : Instr) (w : InstrWord) : opcodeRow (j.withFieldsOf w) = opcodeRow j := by
  cases j <;> rfl

/-- The operands of an instruction are the fields of its word. -/
theorem withFieldsOf_encode (i : Instr) : i.withFieldsOf (encode i) = i := by
  cases i with
  | halt => rfl
  | _ =>
    simp only [Instr.withFieldsOf, encode, encodeImmArith, encodeImmWide, encodeShifted, encodeMultiply,
      encodeImmOffset, encodeRegOffset, encodePrePost, encodeLoadLiteral, encodeBranch, encodeBranchCond,
      encodeBranchReg, bitField_append_low, bitField_append_high, bitField_whole, widthOfBit_widthBit,
      shiftOfBits_shiftBits, shBit_beq_one, Nat.reduceAdd, Nat.reduceLeDiff, Nat.reduceSub, le_refl]

/-- The fixed bits of a row lead the groups to the row's instruction, with the fields of the word as operands. -/
theorem decodeByGroup_of_matchesWord {w : InstrWord} {j : Instr} (hj : j ≠ .halt)
    (h : (opcodeRow j).matchesWord w = true) : decodeByGroup w = .ok (j.withFieldsOf w) := by
  have fixed := bitField_of_matchesWord h
  cases j with
  | halt => exact absurd rfl hj
  | addImm | addsImm | subImm | subsImm =>
    simp [decodeByGroup, decodeDpImmediate, decodeImmArith, Instr.withFieldsOf, opcodeRow, fixed]
  | movn | movz | movk =>
    simp [decodeByGroup, decodeDpImmediate, decodeImmWide, Instr.withFieldsOf, opcodeRow, fixed]
  | addReg | addsReg | subReg | subsReg =>
    simp [decodeByGroup, decodeDpRegister, decodeRegArith, Instr.withFieldsOf, opcodeRow, fixed]
  | andReg | bicReg | orrReg | ornReg | eorReg | eonReg | andsReg | bicsReg =>
    simp [decodeByGroup, decodeDpRegister, decodeRegLogic, Instr.withFieldsOf, opcodeRow, fixed]
  | madd | msub =>
    simp [decodeByGroup, decodeDpRegister, decodeRegMultiply, Instr.withFieldsOf, opcodeRow, fixed]
  | ldrPre | strPre | ldrPost | strPost =>
    simp [decodeByGroup, decodeTransfer, decodePrePost, Instr.withFieldsOf, opcodeRow, fixed]
  | ldrImm | strImm | ldrReg | strReg | ldrLit =>
    simp [decodeByGroup, decodeTransfer, Instr.withFieldsOf, opcodeRow, fixed]
  | b | bEq | bNe | bGe | bLt | bGt | bLe | bAl | br =>
    simp [decodeByGroup, decodeBranch, Instr.withFieldsOf, opcodeRow, fixed]

/-- The word of an instruction matches the row of the instruction: the lemmas of Laws/PerInstr, by format. -/
theorem matchesWord_encode (i : Instr) : (opcodeRow i).matchesWord (encode i) = true := by
  open Laws.OpcodeRow in
  cases i with
  | addImm | addsImm | subImm | subsImm => exact immArith_row _ _ _ _ _ _ _ (by decide)
  | movn | movz | movk => exact immWide_row _ _ _ _ _ _ (by decide)
  | addReg | addsReg | subReg | subsReg | andReg | bicReg | orrReg | ornReg | eorReg | eonReg | andsReg | bicsReg =>
    exact shifted_row _ _ _ _ _ _ _ _ _ _ (by decide)
  | madd | msub => exact multiply_row _ _ _ _ _ _ _ (by decide)
  | ldrImm | strImm => exact immOffset_row _ _ _ _ _ _ (by decide)
  | ldrReg | strReg => exact regOffset_row _ _ _ _ _ _ (by decide)
  | ldrPre | strPre | ldrPost | strPost => exact prePost_row _ _ _ _ _ _ _ (by decide)
  | ldrLit => exact loadLiteral_row _ _ _ _ (by decide)
  | b => exact branch_row _ _ (by decide)
  | bEq | bNe | bGe | bLt | bGt | bLe | bAl => exact branchCond_row _ _ _ (by decide)
  | br => exact branchReg_row _ _ (by decide)
  | halt => exact Laws.OpcodeRow.halt

/-- Every instruction but HALT is what the groups make of its word, the AND that spells HALT too. -/
theorem decodeByGroup_encode {i : Instr} (hi : i ≠ .halt) : decodeByGroup (encode i) = .ok i := by
  rw [decodeByGroup_of_matchesWord hi (matchesWord_encode i), withFieldsOf_encode]

/-! ### Encode of decode, by group

The fields a group tests are parts of the fixed field of the format it selects: `bitField_of_parts` joins them. -/

section
variable {w : InstrWord} {i : Instr}

theorem encode_of_decodeBranch (h : decodeBranch w = .ok i) : encode i = w := by
  simp only [decodeBranch, ite_eq_iff, reduceCtorEq, and_false, or_false, Except.ok.injEq] at h
  obtain ⟨-, hfix, rfl⟩ | ⟨-, ⟨-, ⟨hfix, hlow⟩, hcond⟩ | ⟨-, -, ⟨hfix, hlow⟩, rfl⟩⟩ := h
  · exact encodeBranch_bitField hfix
  · obtain ⟨hc, rfl⟩ | ⟨-, ⟨hc, rfl⟩ | ⟨-, ⟨hc, rfl⟩ | ⟨-, ⟨hc, rfl⟩ | ⟨-, ⟨hc, rfl⟩ |
      ⟨-, ⟨hc, rfl⟩ | ⟨-, hc, rfl⟩⟩⟩⟩⟩⟩ := hcond <;>
    exact encodeBranchCond_bitField hfix hlow hc
  · exact encodeBranchReg_bitField hfix hlow

theorem encode_decodeImmArith (hfix : bitField w 23 6 = 0b100010#6) : encode (decodeImmArith w) = w := by
  simp only [decodeImmArith]
  split_ifs with h0 h1 h2
  · exact encodeImmArith_bitField h0 hfix
  · exact encodeImmArith_bitField h1 hfix
  · exact encodeImmArith_bitField h2 hfix
  · exact encodeImmArith_bitField (twoBits_eq_three_of_ne h0 h1 h2) hfix

theorem encode_of_decodeImmWide (hfix : bitField w 23 6 = 0b100101#6) (h : decodeImmWide w = .ok i) :
    encode i = w := by
  simp only [decodeImmWide, ite_eq_iff, reduceCtorEq, and_false, or_false, Except.ok.injEq] at h
  obtain ⟨hopc, rfl⟩ | ⟨-, ⟨hopc, rfl⟩ | ⟨-, hopc, rfl⟩⟩ := h <;> exact encodeImmWide_bitField hopc hfix

theorem encode_of_decodeDpImmediate (hgroup : bitField w 26 3 = 0b100#3) (h : decodeDpImmediate w = .ok i) :
    encode i = w := by
  simp only [decodeDpImmediate, ite_eq_iff, reduceCtorEq, and_false, or_false, Except.ok.injEq] at h
  obtain ⟨harith, rfl⟩ | ⟨-, hwide, h⟩ := h
  · have hfix := bitField_of_parts rfl hgroup harith
    exact encode_decodeImmArith hfix
  · have hfix := bitField_of_parts rfl hgroup hwide
    exact encode_of_decodeImmWide hfix h

theorem encode_decodeRegArith (hfix : bitField w 25 4 = 0b0101#4) (harith : bitField w 24 1 = 1#1)
    (hinv : bitField w 21 1 = 0#1) : encode (decodeRegArith w) = w := by
  simp only [decodeRegArith]
  split_ifs with h0 h1 h2
  · exact encodeShifted_bitField h0 hfix harith hinv
  · exact encodeShifted_bitField h1 hfix harith hinv
  · exact encodeShifted_bitField h2 hfix harith hinv
  · exact encodeShifted_bitField (twoBits_eq_three_of_ne h0 h1 h2) hfix harith hinv

theorem encode_decodeRegLogic (hfix : bitField w 25 4 = 0b0101#4) (harith : bitField w 24 1 = 0#1) :
    encode (decodeRegLogic w) = w := by
  simp only [decodeRegLogic]
  split_ifs with hinv h0 h1 h2 h0 h1 h2
  · exact encodeShifted_bitField h0 hfix harith hinv
  · exact encodeShifted_bitField h1 hfix harith hinv
  · exact encodeShifted_bitField h2 hfix harith hinv
  · exact encodeShifted_bitField (twoBits_eq_three_of_ne h0 h1 h2) hfix harith hinv
  · exact encodeShifted_bitField h0 hfix harith (bit_eq_one_of_ne hinv)
  · exact encodeShifted_bitField h1 hfix harith (bit_eq_one_of_ne hinv)
  · exact encodeShifted_bitField h2 hfix harith (bit_eq_one_of_ne hinv)
  · exact encodeShifted_bitField (twoBits_eq_three_of_ne h0 h1 h2) hfix harith (bit_eq_one_of_ne hinv)

theorem encode_decodeRegMultiply (hfix : bitField w 21 10 = 0b0011011000#10) : encode (decodeRegMultiply w) = w := by
  simp only [decodeRegMultiply]
  split_ifs with hx
  · exact encodeMultiply_bitField hfix hx
  · exact encodeMultiply_bitField hfix (bit_eq_one_of_ne hx)

theorem encode_of_decodeDpRegister (hgroup : bitField w 25 3 = 0b101#3) (h : decodeDpRegister w = .ok i) :
    encode i = w := by
  simp only [decodeDpRegister, ite_eq_iff, reduceCtorEq, and_false, or_false, Except.ok.injEq] at h
  obtain ⟨hm, ⟨harith, hinv, rfl⟩ | ⟨harith, rfl⟩⟩ | ⟨hm, ⟨hopr, hop⟩, rfl⟩ := h
  · have hfix := bitField_of_parts rfl hm hgroup
    exact encode_decodeRegArith hfix harith hinv
  · have hfix := bitField_of_parts rfl hm hgroup
    exact encode_decodeRegLogic hfix (bit_eq_zero_of_ne harith)
  · have hgroupOpr := bitField_of_parts rfl hgroup hopr
    have hmOpr := bitField_of_parts rfl (bit_eq_one_of_ne hm) hgroupOpr
    have hfix := bitField_of_parts rfl hop hmOpr
    exact encode_decodeRegMultiply hfix

theorem encode_decodePrePost (hbase : bitField w 31 1 = 1#1) (hfix : bitField w 23 7 = 0b1110000#7)
    (hreg : bitField w 21 1 = 0#1) (hlow : bitField w 10 1 = 1#1) : encode (decodePrePost w) = w := by
  simp only [decodePrePost]
  split_ifs with hload hpre hpre
  · exact encodePrePost_bitField hbase hfix hload hreg hpre hlow
  · exact encodePrePost_bitField hbase hfix hload hreg (bit_eq_zero_of_ne hpre) hlow
  · exact encodePrePost_bitField hbase hfix (bit_eq_zero_of_ne hload) hreg hpre hlow
  · exact encodePrePost_bitField hbase hfix (bit_eq_zero_of_ne hload) hreg (bit_eq_zero_of_ne hpre) hlow

theorem encode_of_decodeTransfer (h : decodeTransfer w = .ok i) : encode i = w := by
  simp only [decodeTransfer, ite_eq_iff, reduceCtorEq, and_false, or_false, Except.ok.injEq] at h
  obtain ⟨hbase, hfix, rfl⟩ | ⟨hbase, ⟨hid, hzero⟩, ⟨hU, h⟩ | ⟨hU, h⟩⟩ := h
  · exact encodeLoadLiteral_bitField hbase hfix
  · have hfix := bitField_of_parts rfl hid (bitField_of_parts rfl hU hzero)
    obtain ⟨hload, rfl⟩ | ⟨hload, rfl⟩ := h
    · exact encodeImmOffset_bitField (bit_eq_one_of_ne hbase) hfix hload
    · exact encodeImmOffset_bitField (bit_eq_one_of_ne hbase) hfix (bit_eq_zero_of_ne hload)
  · have hfix := bitField_of_parts rfl hid (bitField_of_parts rfl (bit_eq_zero_of_ne hU) hzero)
    obtain ⟨hreg, hopt, ⟨hload, rfl⟩ | ⟨hload, rfl⟩⟩ | ⟨hreg, hlow, rfl⟩ := h
    · exact encodeRegOffset_bitField (bit_eq_one_of_ne hbase) hfix hload hreg hopt
    · exact encodeRegOffset_bitField (bit_eq_one_of_ne hbase) hfix (bit_eq_zero_of_ne hload) hreg hopt
    · exact encode_decodePrePost (bit_eq_one_of_ne hbase) hfix (bit_eq_zero_of_ne hreg) hlow

/-- Whatever the groups make of a word encodes the word. -/
theorem encode_of_decodeByGroup (h : decodeByGroup w = .ok i) : encode i = w := by
  simp only [decodeByGroup, ite_eq_iff, reduceCtorEq, and_false, or_false] at h
  obtain ⟨-, h⟩ | ⟨-, ⟨himm, h⟩ | ⟨-, ⟨hreg, h⟩ | ⟨-, -, h⟩⟩⟩ := h
  · exact encode_of_decodeBranch h
  · exact encode_of_decodeDpImmediate himm h
  · exact encode_of_decodeDpRegister hreg h
  · exact encode_of_decodeTransfer h

end

end Sys2Proof

/-!
SUPPORT. The round trip of the encoding: a well-formed instruction decodes from its word, and a word that decodes is the
word of a well-formed instruction. From it the opcode table and the DecodeError of a step.
-/

namespace Sys2Proof

/-! ### HALT and the AND that spells it -/

theorem wellFormed_iff {i : Instr} : i.wellFormed = true ↔ i ≠ .andReg .w64 .lsl 0#5 0#6 0#5 0#5 := by
  simp [Instr.wellFormed, Instr.isHaltSpelling]

/-- HALT is the only well-formed instruction with the word of HALT (R141). -/
theorem encode_eq_haltWord_iff {i : Instr} (hwf : i.wellFormed = true) : encode i = haltWord ↔ i = .halt := by
  refine ⟨fun h => by_contra fun hi => wellFormed_iff.mp hwf ?_, fun h => h ▸ rfl⟩
  have hspelling : decodeByGroup haltWord = .ok (.andReg .w64 .lsl 0#5 0#6 0#5 0#5) := by decide
  have hword : decodeByGroup haltWord = .ok i := h ▸ decodeByGroup_encode hi
  exact Except.ok.inj (hword.symm.trans hspelling)

/-! ### The round trip -/

theorem decodeWord_encode {i : Instr} (hwf : i.wellFormed = true) : decodeWord (encode i) = .ok i := by
  by_cases hi : i = .halt
  · rw [hi]; rfl
  · rw [decodeWord_of_ne (mt (encode_eq_haltWord_iff hwf).mp hi), decodeByGroup_encode hi]

theorem encode_of_decodeWord {w : InstrWord} {i : Instr} (h : decodeWord w = .ok i) : encode i = w := by
  by_cases hw : w = haltWord
  · rw [hw, decodeWord_haltWord] at h
    cases h
    exact hw.symm
  · exact encode_of_decodeByGroup (decodeWord_of_ne hw ▸ h)

/-- No word decodes to the AND that spells HALT: its word decodes to HALT. -/
theorem wellFormed_of_decodeWord {w : InstrWord} {i : Instr} (h : decodeWord w = .ok i) : i.wellFormed = true := by
  refine wellFormed_iff.mpr fun hi => ?_
  have hw : w = haltWord := by rw [← encode_of_decodeWord h, hi]; decide
  rw [hw, decodeWord_haltWord, hi] at h
  cases h

/-- Four bytes of a word are decoded as the word, and the bytes after them are left (R100). -/
theorem decodeBytes_bytesOfWord {w : InstrWord} {i : Instr} (h : decodeWord w = .ok i) (rest : List Byte) :
    decodeBytes (bytesOfWord w ++ rest) = .ok (i, rest) := by
  simp [bytesOfWord, decodeBytes, Machine.wordOfBytes_bitField, h]

/-- Settles O50: the word of a well-formed instruction decodes to it, and so do its bytes. -/
theorem decodeOfEncodeIsTheInstruction : Obligations.DecodeOfEncodeIsTheInstruction := fun _ rest hwf =>
  ⟨decodeWord_encode hwf, decodeBytes_bytesOfWord (decodeWord_encode hwf) rest⟩

/-- Settles O51, by the formats' fixed bits that the decoder tests. -/
theorem encodeOfDecodeIsTheWord : Obligations.EncodeOfDecodeIsTheWord := fun _ _ h =>
  ⟨wellFormed_of_decodeWord h, encode_of_decodeWord h⟩

/-! ### The opcode table -/

/-- A word that decodes to an instruction matches the instruction's row. -/
theorem matchesWord_of_decodeWord {w : InstrWord} {i : Instr} (h : decodeWord w = .ok i) :
    (opcodeRow i).matchesWord w = true :=
  encode_of_decodeWord h ▸ matchesWord_encode i

/-- The row of HALT holds one word. -/
theorem eq_haltWord_of_matchesWord {w : InstrWord} (h : (opcodeRow .halt).matchesWord w = true) : w = haltWord := by
  have hand : w &&& BitVec.allOnes 32 = haltWord := beq_iff_eq.mp h
  rwa [BitVec.and_allOnes] at hand

/-- Settles O52: the row's fixed bits choose the instruction, and what is decoded matches its own row. -/
theorem decoderAcceptsExactlyTheOpcodeTable : Obligations.DecoderAcceptsExactlyTheOpcodeTable := by
  refine ⟨fun w j hw => ⟨fun h => ?_, fun ⟨i, hd, hrow⟩ => hrow ▸ matchesWord_of_decodeWord hd⟩, decodeWord_haltWord⟩
  have hj : j ≠ .halt := fun hj => hw (eq_haltWord_of_matchesWord (hj ▸ h))
  exact ⟨j.withFieldsOf w, (decodeWord_of_ne hw).trans (decodeByGroup_of_matchesWord hj h), opcodeRow_withFieldsOf j w⟩

/-- Settles O53, by running the decoder on each word. -/
theorem sampleWordsDecodeAsTheSpecWritesThem : Obligations.SampleWordsDecodeAsTheSpecWritesThem := by
  unfold Obligations.SampleWordsDecodeAsTheSpecWritesThem
  decide

end Sys2Proof

namespace Sys2Proof.Machine

theorem fetch_of_fetches {s : State} (h : Fetches s) : fetch s = .ok (Memory.load32 s.mem s.pc.toNat) := by
  obtain ⟨-, haligned, hfit⟩ := h
  rw [fetch_eq_of_aligned haligned, if_pos hfit]

theorem fetchDecode_of_decodeWord_error {s : State} {w : InstrWord} {r : DecodeReject} (hf : fetch s = .ok w)
    (hd : decodeWord w = .error r) : fetchDecode s = .error (.decodeError w s.pc) := by
  simp [fetchDecode, hf, hd]

/-- Settles O45: were the word decoded, it would match the row of its instruction. -/
theorem unknownWordsRaiseDecodeError : Obligations.UnknownWordsRaiseDecodeError := by
  intro s hs hnone
  have hf := fetch_of_fetches hs
  obtain ⟨hrunning, -, -⟩ := hs
  cases hd : decodeWord (Memory.load32 s.mem s.pc.toNat) with
  | ok i => exact absurd (matchesWord_of_decodeWord hd) (by rw [hnone i]; decide)
  | error r => exact step_of_fetchDecode_error hrunning (fetchDecode_of_decodeWord_error hf hd)

end Sys2Proof.Machine

/-!
SUPPORT. A fetched word that decodes is what the step runs, and HALT among them.
-/

namespace Sys2Proof.Machine

theorem fetchDecode_of_decodeWord_ok {s : State} {w : InstrWord} {i : Instr} (hf : fetch s = .ok w)
    (hd : decodeWord w = .ok i) : fetchDecode s = .ok i := by
  simp [fetchDecode, hf, hd]

/-- Settles O43: the fetch reads the word at pc, and its decoding is what the step runs. -/
theorem stepRunsTheDecodedInstruction : Obligations.StepRunsTheDecodedInstruction := by
  intro s i hs hd
  have hf := fetch_of_fetches hs
  obtain ⟨hrunning, -, -⟩ := hs
  exact step_of_fetchDecode_ok hrunning (fetchDecode_of_decodeWord_ok hf hd)

/-- HALT writes the run status alone (R163). -/
theorem exec_halt (s : State) : exec .halt s = .next (s.setStatus .halted) := rfl

theorem setStatus_keepsRegsBut (s : State) (r : RunStatus) : KeepsRegsBut [] s (s.setStatus r) :=
  fun j _ => State.setStatus_x s r j

theorem setStatus_keepsMem (s : State) (r : RunStatus) : KeepsMem s (s.setStatus r) :=
  fun b => by rw [State.setStatus_mem]

/-- Settles O37: the change of the status keeps the rest, and a step decodes the HALT word to HALT. -/
theorem haltChangesOnlyTheRunStatus : Obligations.HaltChangesOnlyTheRunStatus := by
  refine ⟨fun s => ⟨s.setStatus .halted, exec_halt s, ?_⟩, fun s hs hword => ?_⟩
  · simp [setStatus_keepsRegsBut, setStatus_keepsMem]
  · have hd : decodeWord (Memory.load32 s.mem s.pc.toNat) = .ok .halt := decodeWord_eq_halt_iff.mpr hword
    exact stepRunsTheDecodedInstruction s .halt hs hd

end Sys2Proof.Machine

/-!
SUPPORT. The add/subtract helper as the numbers and flags of R180, and its V as signed overflow.
-/

namespace Sys2Proof.Machine

section
variable {n : Nat} (a b : BitVec n)

/-! ### Sum and difference -/

theorem addSubResult_false_toNat : (addSubResult false a b).toNat = refAdd n a.toNat b.toNat :=
  BitVec.toNat_add a b

theorem addSubResult_true_toNat : (addSubResult true a b).toNat = refSub n a.toNat b.toNat := by
  have hdiff : addSubResult true a b = BitVec.ofInt n ((a.toNat : Int) - b.toNat) :=
    calc a - b = a + -b := BitVec.sub_eq_add_neg a b
      _ = BitVec.ofInt n ((a.toNat : Int) - b.toNat) := by
        simp [Int.sub_eq_add_neg, BitVec.ofInt_add, BitVec.ofInt_neg]
  rw [hdiff, BitVec.toNat_ofInt, refSub, Nat.cast_pow, Nat.cast_ofNat]

/-! ### The flags -/

theorem msb_eq_testBit_toNat : a.msb = a.toNat.testBit (n - 1) := by
  rw [BitVec.msb_eq_getLsbD_last, BitVec.testBit_toNat]

theorem beq_zero_eq_decide_toNat : (a == 0#n) = decide (a.toNat = 0) := by
  rw [Bool.eq_iff_iff, beq_iff_eq, decide_eq_true_iff, BitVec.toNat_eq, BitVec.toNat_ofNat, Nat.zero_mod]

theorem addSubFlags_false (mode : VFlagMode) : addSubFlags mode false a b = refAddFlags mode n a.toNat b.toNat := by
  simp only [addSubFlags, refAddFlags, overflowFlag, msb_eq_testBit_toNat, beq_zero_eq_decide_toNat,
    addSubResult_false_toNat]
  cases mode <;> simp

theorem addSubFlags_true (mode : VFlagMode) : addSubFlags mode true a b = refSubFlags mode n a.toNat b.toNat := by
  simp only [addSubFlags, refSubFlags, overflowFlag, msb_eq_testBit_toNat, beq_zero_eq_decide_toNat,
    addSubResult_true_toNat]
  cases mode <;> simp

/-! ### Signed overflow -/

/-- The sign test of R180 on a sum is the library's signed overflow. -/
theorem addSubFlags_textbook_false_v : (addSubFlags .textbook false a b).v = a.saddOverflow b :=
  (BitVec.saddOverflow_eq a b).symm

/-- The sign test of R180 on a difference is the library's signed overflow. -/
theorem addSubFlags_textbook_true_v : (addSubFlags .textbook true a b).v = a.ssubOverflow b := by
  rw [BitVec.ssubOverflow_eq]
  simp only [addSubFlags, overflowFlag, addSubResult, if_true]
  cases a.msb <;> cases b.msb <;> simp

theorem saddOverflow_iff : a.saddOverflow b = true ↔ outsideSigned n (a.toInt + b.toInt) := by
  rw [BitVec.saddOverflow, Bool.or_eq_true, decide_eq_true_iff, decide_eq_true_iff, outsideSigned, or_comm]

theorem ssubOverflow_iff : a.ssubOverflow b = true ↔ outsideSigned n (a.toInt - b.toInt) := by
  rw [BitVec.ssubOverflow, Bool.or_eq_true, decide_eq_true_iff, decide_eq_true_iff, outsideSigned, or_comm]

end

/-- Settles O5, for every width: result and flags of the sum and of the difference. -/
theorem addSubHelperMatchesItsRule : Obligations.AddSubHelperMatchesItsRule := fun _ mode a b =>
  ⟨addSubResult_false_toNat a b, addSubResult_true_toNat a b, addSubFlags_false a b mode, addSubFlags_true a b mode⟩

/-- Settles O6: the sign tests are the library's signed overflows, and these are the range tests. -/
theorem textbookOverflowIsSignedOverflow : Obligations.TextbookOverflowIsSignedOverflow := fun _ a b =>
  ⟨by rw [addSubFlags_textbook_false_v, saddOverflow_iff], by rw [addSubFlags_textbook_true_v, ssubOverflow_iff],
    rfl, rfl⟩

end Sys2Proof.Machine

/-!
SUPPORT. ImmArith: its operand, result and flags as numbers, and the frame of an instruction that ends with a register
write.
-/

namespace Sys2Proof.Machine

/-! ### A register write that ends an instruction -/

section
variable {ds : List RegIdx} {s t : State}

@[simp] theorem onlyRegs_setFlags {f : PState} : OnlyRegs ds s (t.setFlags f) ↔ OnlyRegs ds s t := Iff.rfl
@[simp] theorem onlyRegs_advance : OnlyRegs ds s t.advance ↔ OnlyRegs ds s t := Iff.rfl

end

theorem setX_advance_frame (s : State) (rd : RegIdx) (v : Word) :
    Advances s (s.setX rd v).advance ∧ (s.setX rd v).advance.draws = s.draws ∧
      OnlyRegs [rd] s (s.setX rd v).advance := by
  simp [Advances, setX_onlyRegs]

/-- After a flag write the frame is the same but for the flags. -/
theorem setFlags_setX_advance_frame (s : State) (f : PState) (rd : RegIdx) (v : Word) :
    ((s.setFlags f).setX rd v).advance.pc = s.pc + 4#64 ∧ ((s.setFlags f).setX rd v).advance.draws = s.draws ∧
      OnlyRegs [rd] s ((s.setFlags f).setX rd v).advance := by
  simp [State.setX_setFlags, setX_onlyRegs]

/-! ### Operand, result and flags -/

/-- `op2` has at most 24 bits, so no width cuts it (R120). -/
theorem immOperand_toNat (sf : Width) (sh : Bool) (imm12 : BitVec 12) :
    (immOperand sf sh imm12).toNat = immValue sh imm12 := by
  have hwidth : 2 ^ 32 ≤ 2 ^ sf.bits := Nat.pow_le_pow_right (by decide) (by cases sf <;> decide)
  have himm : imm12.toNat < 4096 := imm12.isLt
  have hzext : imm12.toNat % 2 ^ sf.bits = imm12.toNat := Nat.mod_eq_of_lt (by omega)
  rw [immOperand, immValue, BitVec.toNat_shiftLeft, BitVec.toNat_setWidth, hzext, Nat.shiftLeft_eq]
  cases sh <;> exact Nat.mod_eq_of_lt (by simp; omega)

section
variable (sf : Width) (sh : Bool) (imm12 : BitVec 12) (rn : RegIdx) (s : State)

theorem immArithResult_false_toNat :
    (immArithResult false sf sh imm12 rn s).toNat = refAdd sf.bits (s.readW sf rn).toNat (immValue sh imm12) := by
  rw [immArithResult, addSubResult_false_toNat, immOperand_toNat]

theorem immArithResult_true_toNat :
    (immArithResult true sf sh imm12 rn s).toNat = refSub sf.bits (s.readW sf rn).toNat (immValue sh imm12) := by
  rw [immArithResult, addSubResult_true_toNat, immOperand_toNat]

theorem immArithFlags_false :
    immArithFlags false sf sh imm12 rn s =
      refAddFlags s.params.vFlagMode sf.bits (s.readW sf rn).toNat (immValue sh imm12) := by
  rw [immArithFlags, addSubFlags_false, immOperand_toNat]

theorem immArithFlags_true :
    immArithFlags true sf sh imm12 rn s =
      refSubFlags s.params.vFlagMode sf.bits (s.readW sf rn).toNat (immValue sh imm12) := by
  rw [immArithFlags, addSubFlags_true, immOperand_toNat]

end

/-! ### The four instructions -/

/-- Settles O1: a register write of the sum. -/
theorem addImmediateAddsAndKeepsFlags : Obligations.AddImmediateAddsAndKeepsFlags := fun sf sh imm12 rn rd s =>
  ⟨_, rfl, by rw [State.advance_x, writeW_regResult, immArithResult_false_toNat], setX_advance_frame s rd _⟩

/-- Settles O2: the flags of the sum, then a register write of it. -/
theorem addsImmediateAddsAndSetsFlags : Obligations.AddsImmediateAddsAndSetsFlags := fun sf sh imm12 rn rd s =>
  ⟨_, rfl, by rw [State.advance_x, writeW_regResult, immArithResult_false_toNat],
    by rw [State.advance_flags, State.writeW_flags, State.setFlags_flags, immArithFlags_false],
    setFlags_setX_advance_frame s _ rd _⟩

/-- Settles O3: a register write of the difference. -/
theorem subImmediateSubtractsAndKeepsFlags : Obligations.SubImmediateSubtractsAndKeepsFlags := fun sf sh imm12 rn rd s =>
  ⟨_, rfl, by rw [State.advance_x, writeW_regResult, immArithResult_true_toNat], setX_advance_frame s rd _⟩

/-- Settles O4: the flags of the difference, then a register write of it. -/
theorem subsImmediateSubtractsAndSetsFlags : Obligations.SubsImmediateSubtractsAndSetsFlags := fun sf sh imm12 rn rd s =>
  ⟨_, rfl, by rw [State.advance_x, writeW_regResult, immArithResult_true_toNat],
    by rw [State.advance_flags, State.writeW_flags, State.setFlags_flags, immArithFlags_true],
    setFlags_setX_advance_frame s _ rd _⟩

end Sys2Proof.Machine

/-!
SUPPORT. ImmWide: the shifted immediate and the final masking as numbers, and the bits of the value MOVK leaves.
-/

namespace Sys2Proof.Machine

/-! ### The shifted immediate and the masking -/

/-- The position of a half word ends at bit 64 at the latest (R121). -/
theorem halfWord_le (hw : BitVec 2) : 16 * hw.toNat + 16 ≤ 64 := by
  omega

/-- No bit of the shifted immediate is lost (R121). -/
theorem wideImm_toNat (hw : BitVec 2) (imm16 : BitVec 16) : (wideImm hw imm16).toNat = wideValue hw imm16 := by
  have hfit : imm16.toNat * 2 ^ (16 * hw.toNat) < 2 ^ 64 :=
    calc imm16.toNat * 2 ^ (16 * hw.toNat) < 2 ^ 16 * 2 ^ (16 * hw.toNat) :=
          Nat.mul_lt_mul_of_pos_right imm16.isLt (Nat.two_pow_pos _)
      _ = 2 ^ (16 * hw.toNat + 16) := by rw [Nat.pow_add, Nat.mul_comm]
      _ ≤ 2 ^ 64 := Nat.pow_le_pow_right (by decide) (halfWord_le hw)
  rw [wideImm, wideValue, BitVec.toNat_shiftLeft, BitVec.toNat_setWidth_of_le (by decide), Nat.shiftLeft_eq,
    Nat.mul_comm hw.toNat, Nat.mod_eq_of_lt hfit]

theorem maskWidth_toNat (sf : Width) (v : Word) : (maskWidth sf v).toNat = v.toNat % 2 ^ sf.bits := by
  rw [maskWidth, BitVec.toNat_setWidth_of_le sf.bits_le, BitVec.toNat_setWidth]

/-- Settles O7: the masked complement of the shifted immediate is written. -/
theorem movnWritesComplement : Obligations.MovnWritesComplement := fun sf hw imm16 rd s =>
  ⟨_, rfl, by rw [State.advance_x, setX_regResult, maskWidth_toNat, BitVec.toNat_not, wideImm_toNat],
    setX_advance_frame s rd _⟩

/-- Settles O8: the masked shifted immediate is written. -/
theorem movzWritesShiftedImmediate : Obligations.MovzWritesShiftedImmediate := fun sf hw imm16 rd s =>
  ⟨_, rfl, by rw [State.advance_x, setX_regResult, maskWidth_toNat, wideImm_toNat], setX_advance_frame s rd _⟩

/-! ### The bits of MOVK -/

theorem getLsbD_maskWidth (sf : Width) (v : Word) (k : Nat) :
    (maskWidth sf v).getLsbD k = (decide (k < sf.bits) && v.getLsbD k) := by
  have hle := sf.bits_le
  rw [maskWidth, BitVec.getLsbD_setWidth, BitVec.getLsbD_setWidth]
  by_cases hk : k < sf.bits
  · simp [hk, show k < 64 by omega]
  · simp [hk]

section
variable (hw : BitVec 2) (k : Nat)

theorem getLsbD_wideMask :
    (wideMask hw).getLsbD k = decide (16 * hw.toNat ≤ k ∧ k < 16 * hw.toNat + 16) := by
  have hones : (0xFFFF#64).getLsbD (k - 16 * hw.toNat) = decide (k - 16 * hw.toNat < 16) :=
    Nat.testBit_two_pow_sub_one 16 _
  rw [wideMask, BitVec.getLsbD_shiftLeft, Nat.mul_comm hw.toNat, hones, Bool.eq_iff_iff]
  simp only [Bool.and_eq_true, Bool.not_eq_true', decide_eq_true_iff, decide_eq_false_iff_not]
  omega

theorem getLsbD_wideImm (imm16 : BitVec 16) :
    (wideImm hw imm16).getLsbD k = (!decide (k < 16 * hw.toNat) && imm16.getLsbD (k - 16 * hw.toNat)) := by
  have hle := halfWord_le hw
  rw [wideImm, BitVec.getLsbD_shiftLeft, BitVec.getLsbD_setWidth, Nat.mul_comm hw.toNat]
  by_cases hk : k < 16 * hw.toNat + 16
  · simp [show k < 64 by omega, show k - 16 * hw.toNat < 64 by omega]
  · simp [BitVec.getLsbD_of_ge imm16 (k - 16 * hw.toNat) (by omega)]

/-- The bits of the half word are replaced by those of `imm16`, the other bits are kept (R187). -/
theorem getLsbD_replaceHalfWord (imm16 : BitVec 16) (old : Word) :
    ((old &&& ~~~wideMask hw) ||| wideImm hw imm16).getLsbD k =
      if 16 * hw.toNat ≤ k ∧ k < 16 * hw.toNat + 16 then imm16.getLsbD (k - 16 * hw.toNat) else old.getLsbD k := by
  rw [BitVec.getLsbD_or, BitVec.getLsbD_and, BitVec.getLsbD_not, getLsbD_wideMask, getLsbD_wideImm]
  split
  next hin => simp [hin]
  next hout =>
    have himm : (!decide (k < 16 * hw.toNat) && imm16.getLsbD (k - 16 * hw.toNat)) = false := by
      by_cases hlow : k < 16 * hw.toNat
      · simp [hlow]
      · simp [BitVec.getLsbD_of_ge imm16 (k - 16 * hw.toNat) (by omega)]
    rw [himm, decide_eq_false hout]
    simpa using BitVec.lt_of_getLsbD

end

/-- Settles O9, bit by bit through the masking and the replacement. -/
theorem movkReplacesOneHalfWord : Obligations.MovkReplacesOneHalfWord := by
  refine fun sf hw imm16 rd s => ⟨_, rfl, fun k => ?_, setX_advance_frame s rd _⟩
  rw [State.advance_x, State.setX_x_self]
  by_cases hrd : rd = 31#5
  · simp [hrd]
  · rw [if_neg hrd, getLsbD_maskWidth, getLsbD_replaceHalfWord, bne_iff_ne.mpr hrd, Bool.true_and]

/-! ### The 32-bit forms with an upper half word -/

section
variable {hw : BitVec 2} (h : 2 ≤ hw.toNat) (imm16 : BitVec 16)
include h

theorem dvd_wideValue : 2 ^ 32 ∣ wideValue hw imm16 :=
  Dvd.dvd.mul_left (Nat.pow_dvd_pow 2 (by omega)) _

theorem wideValue_mod : wideValue hw imm16 % 2 ^ 32 = 0 :=
  Nat.mod_eq_zero_of_dvd (dvd_wideValue h imm16)

theorem not_wideValue_mod : (2 ^ 64 - 1 - wideValue hw imm16) % 2 ^ 32 = 0xFFFFFFFF := by
  have hlt : wideValue hw imm16 < 2 ^ 64 := wideImm_toNat hw imm16 ▸ (wideImm hw imm16).isLt
  have hdvd := dvd_wideValue h imm16
  omega

theorem maskWidth_replaceHalfWord (old : Word) :
    maskWidth .w32 ((old &&& ~~~wideMask hw) ||| wideImm hw imm16) = maskWidth .w32 old := by
  refine BitVec.eq_of_getLsbD_eq fun k _ => ?_
  rw [getLsbD_maskWidth, getLsbD_maskWidth, getLsbD_replaceHalfWord]
  by_cases hk : k < Width.bits .w32
  · have hbelow : k < 32 := hk
    rw [if_neg (by omega)]
  · simp [hk]

end

/-- Settles O10: the half word lies above the 32 bits that the masking keeps. -/
theorem wideMovesOf32BitsIgnoreUpperHalfWords : Obligations.WideMovesOf32BitsIgnoreUpperHalfWords := by
  intro hw imm16 rd s h
  obtain ⟨tz, hz, hzrd, -⟩ := movzWritesShiftedImmediate .w32 hw imm16 rd s
  obtain ⟨tn, hn, hnrd, -⟩ := movnWritesComplement .w32 hw imm16 rd s
  refine ⟨⟨tz, hz, ?_⟩, ⟨tn, hn, ?_⟩, _, rfl, ?_⟩
  · rw [hzrd, Width.bits, wideValue_mod h, regResult, ite_self]
  · rw [hnrd, Width.bits, not_wideValue_mod h]
  · rw [State.advance_x, setX_regResult, maskWidth_replaceHalfWord h, maskWidth_toNat, Width.bits]

end Sys2Proof.Machine

/-!
SUPPORT. The shifts of R200 as numbers, and the shifted second operand: where R200 applies, and where R201 draws.
-/

namespace Sys2Proof.Machine

/-! ### The four shifts -/

/-- The two halves of a rotation have no bit in common, so their OR is their sum (R200). -/
theorem rotatedHalves_or_eq_add {w k x : Nat} (hk : k ≤ w) (hx : x < 2 ^ w) :
    x / 2 ^ k ||| x * 2 ^ (w - k) % 2 ^ w = (x / 2 ^ k + x * 2 ^ (w - k)) % 2 ^ w := by
  have hpow : 2 ^ w = 2 ^ (w - k) * 2 ^ k := by rw [← Nat.pow_add, Nat.sub_add_cancel hk]
  have hlow : x / 2 ^ k < 2 ^ (w - k) := Nat.div_lt_of_lt_mul (by rwa [Nat.mul_comm, ← hpow])
  have hhigh : x * 2 ^ (w - k) % 2 ^ w = 2 ^ (w - k) * (x % 2 ^ k) := by
    rw [hpow, Nat.mul_comm x, Nat.mul_mod_mul_left]
  have hor : x / 2 ^ k ||| x * 2 ^ (w - k) % 2 ^ w = x / 2 ^ k + x * 2 ^ (w - k) % 2 ^ w := by
    rw [hhigh, Nat.lor_comm, Nat.add_comm, Nat.two_pow_add_eq_or_of_lt hlow]
  have hfit : x / 2 ^ k ||| x * 2 ^ (w - k) % 2 ^ w < 2 ^ w :=
    Nat.or_lt_two_pow (Nat.lt_of_le_of_lt (Nat.div_le_self _ _) hx) (Nat.mod_lt _ (Nat.two_pow_pos w))
  rw [← Nat.add_mod_mod, ← hor, Nat.mod_eq_of_lt hfit]

section
variable {w : Nat} (v : BitVec w) (n : Nat)

theorem shiftValue_lsl_toNat : (shiftValue .lsl v n).toNat = v.toNat * 2 ^ n % 2 ^ w := by
  rw [shiftValue, BitVec.toNat_shiftLeft, Nat.shiftLeft_eq]

theorem shiftValue_lsr_toNat : (shiftValue .lsr v n).toNat = v.toNat / 2 ^ n := by
  rw [shiftValue, BitVec.toNat_ushiftRight, Nat.shiftRight_eq_div_pow]

theorem shiftValue_asr_toInt : (shiftValue .asr v n).toInt = Int.fdiv v.toInt (2 ^ n) := by
  rw [shiftValue, BitVec.toInt_sshiftRight, Int.shiftRight_eq_div_pow, Int.fdiv_eq_ediv_of_nonneg _ (by positivity),
    Nat.cast_pow, Nat.cast_ofNat]

/-- The rotation of R200 is the library's: its case of amount 0 is no exception. -/
theorem shiftValue_ror : shiftValue .ror v n = v.rotateRight n := by
  rw [BitVec.rotateRight_def]
  by_cases hk : n % w = 0 <;> simp [shiftValue, hk]

theorem shiftValue_ror_toNat (hw : 0 < w) :
    (shiftValue .ror v n).toNat = (v.toNat / 2 ^ (n % w) + v.toNat * 2 ^ (w - n % w)) % 2 ^ w := by
  rw [shiftValue_ror, BitVec.toNat_rotateRight, Nat.shiftRight_eq_div_pow, Nat.shiftLeft_eq,
    rotatedHalves_or_eq_add (Nat.mod_lt n hw).le v.isLt]

end

/-- A shift of 0 gives 0, whatever its type and amount. -/
theorem shiftValue_zero {w : Nat} (shift : ShiftType) (n : Nat) : shiftValue shift 0#w n = 0#w := by
  cases shift <;> simp [shiftValue]

/-- Settles O11: the four shifts as numbers. -/
theorem shiftsMatchIntegerFormulas : Obligations.ShiftsMatchIntegerFormulas := fun sf v n =>
  ⟨fun _ => ⟨shiftValue_lsl_toNat v n, shiftValue_lsr_toNat v n, shiftValue_asr_toInt v n⟩,
    shiftValue_ror_toNat v n sf.bits_pos⟩

/-! ### The shifted operand -/

theorem readW_zero (s : State) (sf : Width) : s.readW sf 31#5 = 0#sf.bits := by
  simp [State.readW]

section
variable {sf : Width} {shift : ShiftType} {operand : BitVec 6}

theorem shiftedOperand_of_not_oversize (h : ¬isOversize sf shift operand = true) (s : State) (rm : RegIdx) :
    shiftedOperand s sf shift rm operand = shiftValue shift (s.readW sf rm) operand.toNat :=
  if_neg h

/-- The 32 bits of the free value are the whole operand (R201, D9). -/
theorem shiftedOperand_toNat_of_oversize (h : isOversize sf shift operand = true) (s : State) (rm : RegIdx) :
    (shiftedOperand s sf shift rm operand).toNat = (Config.shift32Oversize s.draws).toNat := by
  obtain ⟨rfl, -, -⟩ := isOversize_iff.mp h
  rw [shiftedOperand, if_pos h]
  exact BitVec.toNat_setWidth_of_le (Nat.le_refl 32)

end

/-- Settles O12, on the two sides of R201's condition. -/
theorem shiftedOperandIsShiftOrFreeValue : Obligations.ShiftedOperandIsShiftOrFreeValue := by
  refine fun s sf shift rm operand => ⟨fun h => ?_, fun h => ?_⟩
  · have hin : ¬isOversize sf shift operand = true := fun c => by
      obtain ⟨rfl, hror, hamount⟩ := isOversize_iff.mp c
      obtain hsf | hshift | hlt := h
      · cases hsf
      · exact hror hshift
      · omega
    have hop := shiftedOperand_of_not_oversize hin s rm
    refine ⟨hop, by rw [afterShift, if_neg hin], ?_⟩
    rintro rfl
    rw [hop, readW_zero, shiftValue_zero, BitVec.toNat_ofNat, Nat.zero_mod]
  · have hover := isOversize_iff.mpr h
    exact ⟨shiftedOperand_toNat_of_oversize hover s rm, by rw [afterShift, if_pos hover, State.countDraw_draws]⟩

end Sys2Proof.Machine

/-!
SUPPORT. RegArith and RegLogic: how an instruction with a shifted operand ends, the logic operand and the logic flags as
numbers.
-/

namespace Sys2Proof.Machine

/-! ### How an instruction with a shifted operand ends -/

section
variable {ds : List RegIdx} {s t : State} {sf : Width} {shift : ShiftType} {operand : BitVec 6}

@[simp] theorem onlyRegs_afterShift : OnlyRegs ds (afterShift s sf shift operand) t ↔ OnlyRegs ds s t := by
  simp [OnlyRegs, KeepsRegsBut, KeepsMem, KeepsRest]

@[simp] theorem advances_afterShift : Advances (afterShift s sf shift operand) t ↔ Advances s t := by
  simp [Advances]

end

section
variable (s : State) (sf : Width) (shift : ShiftType) (operand : BitVec 6) (rd : RegIdx) {v : BitVec sf.bits} {r : Nat}
  (hv : v.toNat = r)
include hv

/-- The end of an instruction with a shifted operand that writes no flag: the result and the frame. -/
theorem afterShift_writeW_ends :
    ∃ t, (.next ((afterShift s sf shift operand).writeW sf rd v).advance : Host.Outcome State Fault Refusal) = .next t ∧
      t.x rd = regResult rd r ∧ Advances s t ∧ t.draws = s.draws + shiftDraws sf shift operand ∧ OnlyRegs [rd] s t := by
  obtain ⟨hadv, hdraws, hregs⟩ := setX_advance_frame (afterShift s sf shift operand) rd (v.setWidth 64)
  exact ⟨_, rfl, by rw [State.advance_x, writeW_regResult, hv], advances_afterShift.mp hadv,
    hdraws.trans (afterShift_shiftDraws s sf shift operand), onlyRegs_afterShift.mp hregs⟩

/-- The end of an instruction with a shifted operand that writes the flags: the result, the flags and the frame. -/
theorem afterShift_setFlags_writeW_ends {f g : PState} (hf : f = g) :
    ∃ t, (.next (((afterShift s sf shift operand).setFlags f).writeW sf rd v).advance :
        Host.Outcome State Fault Refusal) = .next t ∧
      t.x rd = regResult rd r ∧ t.flags = g ∧ t.pc = s.pc + 4#64 ∧
      t.draws = s.draws + shiftDraws sf shift operand ∧ OnlyRegs [rd] s t := by
  obtain ⟨hpc, hdraws, hregs⟩ := setFlags_setX_advance_frame (afterShift s sf shift operand) f rd (v.setWidth 64)
  exact ⟨_, rfl, by rw [State.advance_x, writeW_regResult, hv],
    by rw [State.advance_flags, State.writeW_flags, State.setFlags_flags, hf], hpc.trans (by rw [afterShift_pc]),
    hdraws.trans (afterShift_shiftDraws s sf shift operand), onlyRegs_afterShift.mp hregs⟩

end

/-! ### RegArith -/

/-- Settles O13: the sum is written. -/
theorem addRegisterAddsAndKeepsFlags : Obligations.AddRegisterAddsAndKeepsFlags := fun sf shift _ operand _ rd s =>
  afterShift_writeW_ends s sf shift operand rd (addSubResult_false_toNat _ _)

/-- Settles O14: the flags of the sum and the sum are written. -/
theorem addsRegisterAddsAndSetsFlags : Obligations.AddsRegisterAddsAndSetsFlags := fun sf shift _ operand _ rd s =>
  afterShift_setFlags_writeW_ends s sf shift operand rd (addSubResult_false_toNat _ _) (addSubFlags_false _ _ _)

/-- Settles O15: the difference is written. -/
theorem subRegisterSubtractsAndKeepsFlags : Obligations.SubRegisterSubtractsAndKeepsFlags :=
  fun sf shift _ operand _ rd s =>
    afterShift_writeW_ends s sf shift operand rd (addSubResult_true_toNat _ _)

/-- Settles O16: the flags of the difference and the difference are written. -/
theorem subsRegisterSubtractsAndSetsFlags : Obligations.SubsRegisterSubtractsAndSetsFlags :=
  fun sf shift _ operand _ rd s =>
    afterShift_setFlags_writeW_ends s sf shift operand rd (addSubResult_true_toNat _ _) (addSubFlags_true _ _ _)

/-! ### RegLogic -/

/-- The flags of ANDS and BICS, read off the result as a number (R214). -/
theorem logicFlags_eq {n : Nat} (result : BitVec n) : logicFlags result = refLogicFlags n result.toNat := by
  rw [logicFlags, refLogicFlags, msb_eq_testBit_toNat, beq_zero_eq_decide_toNat]

theorem logicFlags_of_toNat {n : Nat} {result : BitVec n} {r : Nat} (h : result.toNat = r) :
    logicFlags result = refLogicFlags n r := by
  rw [logicFlags_eq, h]

section
variable (s : State) (sf : Width) (shift : ShiftType) (rm : RegIdx) (operand : BitVec 6)

@[simp] theorem logicOperand_false_toNat :
    (logicOperand s sf shift rm operand false).toNat = (shiftedOperand s sf shift rm operand).toNat := rfl

@[simp] theorem logicOperand_true_toNat :
    (logicOperand s sf shift rm operand true).toNat = 2 ^ sf.bits - 1 - (shiftedOperand s sf shift rm operand).toNat :=
  BitVec.toNat_not

end

/-- Settles O17: the AND with the operand, and with its complement, is written. -/
theorem andBicCombineWithShiftedOperand : Obligations.AndBicCombineWithShiftedOperand :=
  fun sf shift _ operand _ rd s =>
    ⟨afterShift_writeW_ends s sf shift operand rd (by rw [BitVec.toNat_and, logicOperand_false_toNat]),
      afterShift_writeW_ends s sf shift operand rd (by rw [BitVec.toNat_and, logicOperand_true_toNat])⟩

/-- Settles O18: the OR with the operand, and with its complement, is written. -/
theorem orrOrnCombineWithShiftedOperand : Obligations.OrrOrnCombineWithShiftedOperand :=
  fun sf shift _ operand _ rd s =>
    ⟨afterShift_writeW_ends s sf shift operand rd (by rw [BitVec.toNat_or, logicOperand_false_toNat]),
      afterShift_writeW_ends s sf shift operand rd (by rw [BitVec.toNat_or, logicOperand_true_toNat])⟩

/-- Settles O19: the XOR with the operand, and with its complement, is written. -/
theorem eorEonCombineWithShiftedOperand : Obligations.EorEonCombineWithShiftedOperand :=
  fun sf shift _ operand _ rd s =>
    ⟨afterShift_writeW_ends s sf shift operand rd (by rw [BitVec.toNat_xor, logicOperand_false_toNat]),
      afterShift_writeW_ends s sf shift operand rd (by rw [BitVec.toNat_xor, logicOperand_true_toNat])⟩

/-- Settles O20: the AND with the operand and its flags are written. -/
theorem andsSetsLogicFlags : Obligations.AndsSetsLogicFlags := fun sf shift rm operand rn rd s =>
  have hv : (s.readW sf rn &&& logicOperand s sf shift rm operand false).toNat =
      (s.readW sf rn).toNat &&& (shiftedOperand s sf shift rm operand).toNat := by
    rw [BitVec.toNat_and, logicOperand_false_toNat]
  afterShift_setFlags_writeW_ends s sf shift operand rd hv (logicFlags_of_toNat hv)

/-- Settles O21: the AND with the complement of the operand and its flags are written. -/
theorem bicsSetsLogicFlags : Obligations.BicsSetsLogicFlags := fun sf shift rm operand rn rd s =>
  have hv : (s.readW sf rn &&& logicOperand s sf shift rm operand true).toNat =
      (s.readW sf rn).toNat &&& (2 ^ sf.bits - 1 - (shiftedOperand s sf shift rm operand).toNat) := by
    rw [BitVec.toNat_and, logicOperand_true_toNat]
  afterShift_setFlags_writeW_ends s sf shift operand rd hv (logicFlags_of_toNat hv)

end Sys2Proof.Machine

/-!
SUPPORT. RegMultiply: the products of `W`-bit registers as unbounded products reduced once.
-/

namespace Sys2Proof.Machine

section
variable {n : Nat} (a b c : BitVec n)

theorem add_mul_toNat : (a + b * c).toNat = (a.toNat + b.toNat * c.toNat) % 2 ^ n := by
  rw [BitVec.toNat_add, BitVec.toNat_mul, Nat.add_mod_mod]

/-- A subtrahend may be reduced mod `2^w` first (R10). -/
theorem refSub_mod_right (w x y : Nat) : refSub w x (y % 2 ^ w) = refSub w x y := by
  rw [refSub, refSub, Int.natCast_mod, Nat.cast_pow, Nat.cast_ofNat, Int.sub_emod_emod]

theorem sub_mul_toNat : (a - b * c).toNat = refSub n a.toNat (b.toNat * c.toNat) := by
  rw [← refSub_mod_right, ← BitVec.toNat_mul]
  exact addSubResult_true_toNat a (b * c)

end

/-- Settles O22: a register write of the sum with the product. -/
theorem maddMultipliesAndAdds : Obligations.MaddMultipliesAndAdds := fun _ _ _ _ rd s =>
  ⟨_, rfl, by rw [State.advance_x, writeW_regResult, add_mul_toNat], setX_advance_frame s rd _⟩

/-- Settles O23: a register write of the difference with the product. -/
theorem msubMultipliesAndSubtracts : Obligations.MsubMultipliesAndSubtracts := fun _ _ _ _ rd s =>
  ⟨_, rfl, by rw [State.advance_x, writeW_regResult, sub_mul_toNat], setX_advance_frame s rd _⟩

end Sys2Proof.Machine

/-!
SUPPORT. The addresses of the loads and stores as integer sums, and the bytes of an access of either size as one number.
-/

namespace Sys2Proof.Machine

/-! ### Addresses -/

/-- A signed offset added to a word wraps mod 2^64 (R241). -/
theorem add_ofInt_toNat (a : Word) (z : Int) : (a + BitVec.ofInt 64 z).toNat = wrapSum a.toNat z := by
  have ha : BitVec.ofInt 64 (a.toNat : Int) = a := by rw [BitVec.ofInt_natCast, BitVec.ofNat_toNat, BitVec.setWidth_eq]
  calc (a + BitVec.ofInt 64 z).toNat = (BitVec.ofInt 64 (a.toNat + z)).toNat := by rw [BitVec.ofInt_add, ha]
    _ = wrapSum a.toNat z := BitVec.toNat_ofInt _

theorem add_signExtend_toNat {w : Nat} (a : Word) (offset : BitVec w) :
    (a + offset.signExtend 64).toNat = wrapSum a.toNat offset.toInt :=
  add_ofInt_toNat a offset.toInt

/-- An offset counted in words (R125, R126). -/
theorem add_signExtend_mul_four_toNat {w : Nat} (a : Word) (offset : BitVec w) :
    (a + offset.signExtend 64 * 4#64).toNat = wrapSum a.toNat (offset.toInt * 4) := by
  rw [← add_ofInt_toNat, BitVec.ofInt_mul]
  rfl

section
variable (s : State) (sf : Width) (xm xn : RegIdx)

theorem immOffsetAddr_toNat (imm12 : BitVec 12) :
    (immOffsetAddr s sf imm12 xn).toNat = ((s.x xn).toNat + imm12.toNat * sf.bytes) % 2 ^ 64 := by
  have hbytes : sf.bytes % 2 ^ 64 = sf.bytes := by cases sf <;> rfl
  rw [immOffsetAddr, add_mul_toNat, BitVec.toNat_setWidth_of_le (by decide), BitVec.toNat_ofNat, hbytes]

theorem regOffsetAddr_toNat : (regOffsetAddr s xm xn).toNat = ((s.x xn).toNat + (s.x xm).toNat) % 2 ^ 64 :=
  BitVec.toNat_add _ _

theorem indexedAddr_toNat (simm9 : BitVec 9) :
    (indexedAddr s simm9 xn).toNat = wrapSum (s.x xn).toNat simm9.toInt :=
  add_signExtend_toNat _ _

theorem literalAddr_toNat (simm19 : BitVec 19) :
    (literalAddr s simm19).toNat = wrapSum s.pc.toNat (simm19.toInt * 4) :=
  add_signExtend_mul_four_toNat _ _

end

/-! ### Bytes and numbers -/

theorem extractLsb'_byte_toNat {w : Nat} (v : BitVec w) (k : Nat) :
    (v.extractLsb' (8 * k) 8).toNat = v.toNat / 256 ^ k % 256 := by
  rw [BitVec.extractLsb'_toNat, Nat.shiftRight_eq_div_pow, Nat.pow_mul]

theorem byteOf_eq_extractLsb' (v : Word) (k : Nat) : byteOf v k = v.extractLsb' (8 * k) 8 :=
  BitVec.eq_of_toNat_eq (by rw [extractLsb'_byte_toNat, byteOf, BitVec.toNat_ofNat])

/-- A number below `256^n` is the little-endian number of the bytes it has (R14). -/
theorem littleEndian_eq_of_bytes {m : Memory} {n : Nat} :
    ∀ {a x : Nat}, x < 256 ^ n → (∀ k < n, (Memory.read m (a + k)).toNat = x / 256 ^ k % 256) →
      littleEndian m a n = x := by
  induction n with
  | zero => exact fun hx _ => (Nat.lt_one_iff.mp hx).symm
  | succ n ih =>
    intro a x hx hbytes
    have hlow : (Memory.read m a).toNat = x % 256 := by simpa using hbytes 0 (by omega)
    have hhigh : littleEndian m (a + 1) n = x / 256 := by
      refine ih (by omega) fun k hk => ?_
      rw [Nat.div_div_eq_div_mul, ← Nat.pow_succ', ← hbytes (k + 1) (by omega), Nat.add_assoc, Nat.add_comm 1 k]
    rw [littleEndian, hlow, hhigh]
    omega

/-! ### The bytes of an access of either size -/

section
variable (m : Memory) (sf : Width) (a : Nat) {k : Nat} (hk : k < sf.bytes)

theorem Memory.loadWidth_toNat_lt : (Memory.loadWidth m sf a).toNat < 256 ^ sf.bytes := by
  cases sf with
  | w32 =>
    rw [Memory.loadWidth, BitVec.toNat_setWidth_of_le (by decide)]
    exact (Memory.load32 m a).isLt
  | w64 => exact (Memory.load64 m a).isLt

include hk

theorem Memory.extractLsb'_loadWidth : (Memory.loadWidth m sf a).extractLsb' (8 * k) 8 = Memory.read m (a + k) := by
  cases sf with
  | w32 =>
    have hk : k < 4 := hk
    rw [Memory.loadWidth, BitVec.extractLsb'_setWidth_of_le (by omega), Memory.extractLsb'_load32 m a hk]
  | w64 => exact Memory.extractLsb'_load64 m a hk

/-- Inside a store of either size stand the bytes of the stored value (R14, R240). -/
theorem Memory.read_storeWidth_inside (v : Word) : Memory.read (Memory.storeWidth m sf a v) (a + k) = byteOf v k := by
  rw [byteOf_eq_extractLsb']
  cases sf with
  | w32 =>
    have hk : k < 4 := hk
    rw [← Memory.extractLsb'_load32 _ a hk, Memory.storeWidth, Memory.load32_store32_self,
      BitVec.extractLsb'_setWidth_of_le (by omega)]
  | w64 => rw [← Memory.extractLsb'_load64 _ a hk, Memory.storeWidth, Memory.load64_store64_self]

end

/-- A load of either size gives the little-endian number of its bytes (R14, R240). -/
theorem Memory.loadWidth_toNat (m : Memory) (sf : Width) (a : Nat) :
    (Memory.loadWidth m sf a).toNat = littleEndian m a sf.bytes :=
  (littleEndian_eq_of_bytes (Memory.loadWidth_toNat_lt m sf a) fun k hk => by
    rw [← Memory.extractLsb'_loadWidth m sf a hk, extractLsb'_byte_toNat]).symm

end Sys2Proof.Machine

/-!
SUPPORT. The loads: how a load into a register ends, and the two register writes of the indexed forms.
-/

namespace Sys2Proof.Machine

/-! ### Frames in sequence -/

theorem OnlyRegs.mono {ds fs : List RegIdx} {s t : State} (h : OnlyRegs ds s t) (hsub : ds ⊆ fs) : OnlyRegs fs s t :=
  have ⟨hregs, hrest⟩ := h
  ⟨fun j hj => hregs j fun hin => hj (hsub hin), hrest⟩

/-- Two changes one after the other touch at most the registers that either touches. -/
theorem OnlyRegs.trans {ds es : List RegIdx} {s u t : State} (h : OnlyRegs ds s u) (h' : OnlyRegs es u t) :
    OnlyRegs (ds ++ es) s t := by
  obtain ⟨hregs, hmem, hstatus, hsp, hparams⟩ := h
  obtain ⟨hregs', hmem', hstatus', hsp', hparams'⟩ := h'
  refine ⟨fun j hj => ?_, fun b => (hmem' b).trans (hmem b), hstatus'.trans hstatus, hsp'.trans hsp,
    hparams'.trans hparams⟩
  obtain ⟨hds, hes⟩ := not_or.mp (mt List.mem_append.mpr hj)
  exact (hregs' j hes).trans (hregs j hds)

/-! ### A load into a register -/

/-- A load into a register that ends an instruction, on the two sides of its bounds check. -/
theorem finish_loadInto_ends (s : State) (sf : Width) (addr : Word) (rt : RegIdx) :
    (addr.toNat + sf.bytes ≤ Config.memSize →
      ∃ t, finish (loadInto s sf addr rt) = .next t ∧
        t.x rt = regResult rt (littleEndian s.mem addr.toNat sf.bytes) ∧
        Advances s t ∧ t.draws = s.draws ∧ OnlyRegs [rt] s t) ∧
    (Config.memSize < addr.toNat + sf.bytes →
      finish (loadInto s sf addr rt) = .fault (.boundsError addr.toNat sf.bytes s.pc)) := by
  rw [finish_loadInto]
  refine ⟨fun h => ⟨_, if_pos h, ?_, setX_advance_frame s rt _⟩, fun h => if_neg (Nat.not_le_of_lt h)⟩
  rw [State.advance_x, setX_regResult, Memory.loadWidth_toNat]

/-- Settles O25: the load at the sum of base and scaled immediate. -/
theorem loadUnsignedOffsetReadsLittleEndian : Obligations.LoadUnsignedOffsetReadsLittleEndian :=
  fun sf imm12 xn rt s => ⟨immOffsetAddr_toNat s sf xn imm12, finish_loadInto_ends s sf _ rt⟩

/-- Settles O26: the load at the sum of two registers. -/
theorem loadRegisterOffsetReadsLittleEndian : Obligations.LoadRegisterOffsetReadsLittleEndian :=
  fun sf xm xn rt s => ⟨regOffsetAddr_toNat s xm xn, finish_loadInto_ends s sf _ rt⟩

/-- Settles O27: the load at the signed sum with the pc. -/
theorem loadLiteralReadsLittleEndian : Obligations.LoadLiteralReadsLittleEndian :=
  fun sf simm19 rt s => ⟨literalAddr_toNat s simm19, finish_loadInto_ends s sf _ rt⟩

/-! ### The indexed loads -/

section
variable {ds : List RegIdx} {s t : State} {xn rt r : RegIdx} {v : Word}

@[simp] theorem advances_setX : Advances (s.setX r v) t ↔ Advances s t := by
  simp [Advances]
@[simp] theorem advances_afterOverlap : Advances (afterOverlap s xn rt) t ↔ Advances s t := by
  simp [Advances]
@[simp] theorem onlyRegs_afterOverlap : OnlyRegs ds (afterOverlap s xn rt) t ↔ OnlyRegs ds s t := by
  simp [OnlyRegs, KeepsRegsBut, KeepsMem, KeepsRest]

end

/-- Settles O28: the load runs from the written-back state, and leaves every register but `rt` as it is there. -/
theorem loadPreIndexWritesBackFirst : Obligations.LoadPreIndexWritesBackFirst := by
  intro sf simm9 xn rt s
  obtain ⟨hload, hfault⟩ :=
    finish_loadInto_ends (s.setX xn (indexedAddr s simm9 xn)) sf (indexedAddr s simm9 xn) rt
  rw [State.setX_mem, State.setX_draws] at hload
  rw [State.setX_pc] at hfault
  refine ⟨indexedAddr_toNat s xn simm9, fun h => ?_, hfault⟩
  obtain ⟨t, hexec, hrt, hadv, hdraws, honly⟩ := hload h
  refine ⟨t, hexec, hrt, fun hne => ?_, advances_setX.mp hadv, hdraws,
    ((setX_onlyRegs s xn _).trans honly).mono (by simp)⟩
  obtain ⟨hkeep, -⟩ := honly
  rw [hkeep xn (by simpa using hne), setX_regResult]

/-- The value LDR (post-index) leaves on overlap is the drawn one of the three candidates (R248, D11). -/
theorem postLoadOverlapValue_toNat (s : State) (simm9 : BitVec 9) (xn : RegIdx) (v : Word) :
    (postLoadOverlapValue s simm9 xn v).toNat =
      overlapLoaded (Config.wbLoad s.draws) (s.x xn).toNat simm9.toInt v.toNat := by
  unfold postLoadOverlapValue overlapLoaded
  cases Config.wbLoad s.draws with
  | basePlusOffset => exact indexedAddr_toNat s xn simm9
  | loadedValue => rfl
  | loadedPlusOffset => exact add_signExtend_toNat v simm9

/-- A register written before an overlap-free write-back reads the written value: the write-back is to another register, or
both are the zero register (R31). -/
theorem setX_setX_regResult {xn rt : RegIdx} (hno : ¬(rt = xn ∧ rt ≠ 31#5)) (s : State) (v base : Word) :
    ((s.setX rt v).setX xn base).x rt = regResult rt v.toNat := by
  by_cases hrt : rt = 31#5
  · subst hrt
    rw [State.x_zero, regResult, if_pos rfl]
  · have hne : rt ≠ xn := fun h => hno ⟨h, hrt⟩
    rw [State.setX_x_of_ne _ _ hne, setX_regResult]

/-- Settles O29, by whether the written-back base is the loaded register: then one write of the drawn value, and else two
writes. -/
theorem loadPostIndexWritesBackAfter : Obligations.LoadPostIndexWritesBackAfter := by
  refine fun sf simm9 xn rt s => ⟨fun h => ⟨_, (execLdrPost_eq sf simm9 xn rt s).trans (if_pos h), ?_⟩,
    fun h => (execLdrPost_eq sf simm9 xn rt s).trans (if_neg (Nat.not_le_of_lt h))⟩
  by_cases ho : rt = xn ∧ rt ≠ 31#5
  · rw [if_pos (isOverlap_iff.mpr ho), if_pos ho]
    obtain ⟨rfl, hne⟩ := ho
    refine ⟨⟨?_, by simp [afterOverlap_draws, hne]⟩, by simp [Advances], ?_⟩
    · rw [State.advance_x, State.setX_x_self, if_neg hne, ← Memory.loadWidth_toNat, ← postLoadOverlapValue_toNat,
        BitVec.ofNat_toNat, BitVec.setWidth_eq]
    · exact onlyRegs_afterOverlap.mp ((setX_onlyRegs _ rt _).mono (by simp))
  · rw [if_neg (mt isOverlap_iff.mp ho), if_neg ho]
    refine ⟨⟨?_, ?_, by simp [afterOverlap_draws, ho]⟩, by simp [Advances], ?_⟩
    · rw [State.advance_x, setX_setX_regResult ho, Memory.loadWidth_toNat]
    · rw [State.advance_x, setX_regResult, indexedAddr_toNat]
    · exact onlyRegs_afterOverlap.mp ((setX_onlyRegs _ rt _).trans (setX_onlyRegs _ xn _))

end Sys2Proof.Machine

/-!
SUPPORT. The stores: how a store ends an instruction, alone and with a write-back after it.
-/

namespace Sys2Proof.Machine

/-! ### A store alone -/

/-- A store that ends an instruction, on the two sides of its bounds check. -/
theorem finish_storeValue_ends (s : State) (sf : Width) (addr v : Word) :
    (addr.toNat + sf.bytes ≤ Config.memSize →
      ∃ t, finish (storeValue s sf addr v) = .next t ∧
        (∀ k, k < sf.bytes → Memory.read t.mem (addr.toNat + k) = byteOf v k) ∧
        KeepsMemBut addr.toNat sf.bytes s t ∧ KeepsRegsBut [] s t ∧
        Advances s t ∧ t.draws = s.draws ∧ KeepsRest s t) ∧
    (Config.memSize < addr.toNat + sf.bytes →
      finish (storeValue s sf addr v) = .fault (.boundsError addr.toNat sf.bytes s.pc)) := by
  rw [finish_storeValue]
  exact ⟨fun h => ⟨_, if_pos h, fun k hk => Memory.read_storeWidth_inside s.mem sf _ hk v,
      storeWidth_keepsMemBut s sf _ v, fun _ _ => rfl, ⟨rfl, rfl⟩, rfl, keepsRest_refl⟩,
    fun h => if_neg (Nat.not_le_of_lt h)⟩

/-- Settles O30: the store at the sum of base and scaled immediate. -/
theorem storeUnsignedOffsetWritesLittleEndian : Obligations.StoreUnsignedOffsetWritesLittleEndian :=
  fun sf imm12 xn rt s => ⟨immOffsetAddr_toNat s sf xn imm12, finish_storeValue_ends s sf _ (s.x rt)⟩

/-- Settles O31: the store at the sum of two registers. -/
theorem storeRegisterOffsetWritesLittleEndian : Obligations.StoreRegisterOffsetWritesLittleEndian :=
  fun sf xm xn rt s => ⟨regOffsetAddr_toNat s xm xn, finish_storeValue_ends s sf _ (s.x rt)⟩

/-! ### A store with a write-back -/

section
variable {ds : List RegIdx} {a n : Nat} {s t : State} {xn rt : RegIdx}

@[simp] theorem keepsMemBut_afterOverlap : KeepsMemBut a n (afterOverlap s xn rt) t ↔ KeepsMemBut a n s t := by
  simp [KeepsMemBut]
@[simp] theorem keepsRegsBut_afterOverlap : KeepsRegsBut ds (afterOverlap s xn rt) t ↔ KeepsRegsBut ds s t := by
  simp [KeepsRegsBut]
@[simp] theorem afterOverlap_keepsRest : KeepsRest (afterOverlap s xn rt) t ↔ KeepsRest s t := by
  simp [KeepsRest]

end

/-- A store and the write-back of a base that end an instruction: the stored bytes, the base and the frame. -/
theorem storeWidth_setX_ends (s : State) (sf : Width) (a : Nat) (v : Word) (xn : RegIdx) (base : Word) :
    ∃ t, (.next ((s.setMem (Memory.storeWidth s.mem sf a v)).setX xn base).advance :
        Host.Outcome State Fault Refusal) = .next t ∧
      (∀ k, k < sf.bytes → Memory.read t.mem (a + k) = byteOf v k) ∧
      t.x xn = regResult xn base.toNat ∧
      KeepsMemBut a sf.bytes s t ∧ KeepsRegsBut [xn] s t ∧ Advances s t ∧ t.draws = s.draws ∧ KeepsRest s t := by
  refine ⟨_, rfl, fun k hk => ?_, setX_regResult _ xn base, fun b hb => ?_, setX_keepsRegsBut _ xn base,
    by simp [Advances], by simp, by simp⟩
  · rw [State.advance_mem, State.setX_mem, State.setMem_mem, Memory.read_storeWidth_inside _ _ _ hk]
  · rw [State.advance_mem, State.setX_mem]
    exact storeWidth_keepsMemBut s sf a v b hb

theorem State.setX_setMem (s : State) (i : RegIdx) (v : Word) (m : Memory) :
    (s.setX i v).setMem m = (s.setMem m).setX i v := by
  unfold State.setX; split <;> rfl

/-- STR (pre-index): the store at the updated base and the write-back, which may as well come after it since the stored
value is chosen before both (R247). -/
theorem execStrPre_eq (sf : Width) (simm9 : BitVec 9) (xn rt : RegIdx) (s : State) :
    execStrPre sf simm9 xn rt s =
      if (indexedAddr s simm9 xn).toNat + sf.bytes ≤ Config.memSize then
        .next (((afterOverlap s xn rt).setMem (Memory.storeWidth (afterOverlap s xn rt).mem sf
          (indexedAddr s simm9 xn).toNat (preStoreValue s (indexedAddr s simm9 xn) xn rt))).setX xn
            (indexedAddr s simm9 xn)).advance
      else .fault (.boundsError (indexedAddr s simm9 xn).toNat sf.bytes s.pc) := by
  rw [execStrPre, finish_storeValue, State.setX_setMem, State.setX_mem, State.setX_pc, afterOverlap_pc]

/-- Settles O32: on both sides of the overlap the same store and write-back, of the value `preStoreValue` chooses. -/
theorem storePreIndexWritesBackFirst : Obligations.StorePreIndexWritesBackFirst := by
  refine fun sf simm9 xn rt s => ⟨indexedAddr_toNat s xn simm9, fun h => ?_,
    fun h => (execStrPre_eq sf simm9 xn rt s).trans (if_neg (Nat.not_le_of_lt h))⟩
  rw [← preStoreValue_eq, ← afterOverlap_draws]
  obtain ⟨t, hnext, hbytes, hxn, hmem, hregs, hadv, hdraws, hrest⟩ := storeWidth_setX_ends (afterOverlap s xn rt) sf
    (indexedAddr s simm9 xn).toNat (preStoreValue s (indexedAddr s simm9 xn) xn rt) xn (indexedAddr s simm9 xn)
  exact ⟨t, ((execStrPre_eq sf simm9 xn rt s).trans (if_pos h)).trans hnext, hbytes, hxn, hdraws,
    keepsMemBut_afterOverlap.mp hmem, keepsRegsBut_afterOverlap.mp hregs, advances_afterOverlap.mp hadv,
    afterOverlap_keepsRest.mp hrest⟩

/-- Settles O33: the store at the old base, and the write-back of the base plus the offset. -/
theorem storePostIndexWritesBackAfter : Obligations.StorePostIndexWritesBackAfter := by
  refine fun sf simm9 xn rt s => ⟨fun h => ?_,
    fun h => (execStrPost_eq sf simm9 xn rt s).trans (if_neg (Nat.not_le_of_lt h))⟩
  rw [← indexedAddr_toNat, show exec (.strPost sf simm9 xn rt) s = _ from
    (execStrPost_eq sf simm9 xn rt s).trans (if_pos h)]
  exact storeWidth_setX_ends s sf _ _ xn _

end Sys2Proof.Machine

/-!
SUPPORT. The branches: each answers the state with a pc of its own, and what differs is how that pc is chosen.
-/

namespace Sys2Proof.Machine

/-! ### A write of the pc alone -/

theorem setPc_frame (s : State) (a : Word) :
    (s.setPc a).flags = s.flags ∧ (s.setPc a).draws = s.draws ∧ OnlyRegs [] s (s.setPc a) :=
  ⟨rfl, rfl, fun _ _ => rfl, fun _ => rfl, keepsRest_refl⟩

/-! ### The target of B -/

theorem branchAddr_toNat (s : State) (simm26 : BitVec 26) :
    (branchAddr s simm26).toNat = wrapSum s.pc.toNat (simm26.toInt * 4) :=
  add_signExtend_mul_four_toNat _ _

/-- Settles O34: a write of the pc with the signed sum. -/
theorem branchJumpsBySignedWords : Obligations.BranchJumpsBySignedWords := fun simm26 s =>
  ⟨_, rfl, branchAddr_toNat s simm26, setPc_frame s _⟩

/-! ### The conditions -/

/-- The evaluated condition is the one of the table (R271). -/
theorem condHolds_iff {c : Cond} {f : PState} : condHolds c f = true ↔ condMeans c f := by
  cases c with
  | eq => exact Iff.rfl
  | ge => exact beq_iff_eq
  | lt => exact bne_iff_ne
  | ne | gt | le => simp [condHolds, condMeans]
  | al => exact iff_of_true rfl trivial

/-- Taken or not, a conditional branch writes the pc alone (R272). -/
theorem branchIf_eq_setPc (c : Cond) (simm19 : BitVec 19) (s : State) :
    branchIf c simm19 s = s.setPc (if condHolds c s.flags then literalAddr s simm19 else s.pc + 4#64) :=
  (apply_ite s.setPc _ _ _).symm

/-- Settles O35: a write of the pc, with the signed sum if the condition holds and with the next address if not. -/
theorem conditionalBranchesFollowTheirConditions : Obligations.ConditionalBranchesFollowTheirConditions := by
  intro c simm19 s
  refine ⟨_, (exec_condInstr c simm19 s).trans (congrArg _ (branchIf_eq_setPc c simm19 s)), fun h => ?_, fun h => ?_,
    setPc_frame s _⟩
  · rw [State.setPc_pc, if_pos (condHolds_iff.mpr h), literalAddr_toNat]
  · rw [State.setPc_pc, if_neg (mt condHolds_iff.mp h)]

/-! ### The target of BR -/

/-- A register reads as the word of its own number, and index 31 as 0 (R31). -/
theorem State.x_eq_regResult (s : State) (i : RegIdx) : s.x i = regResult i (s.x i).toNat := by
  unfold regResult
  split
  next h => rw [h, State.x_zero]
  next => rw [BitVec.ofNat_toNat, BitVec.setWidth_eq]

/-- Settles O36: a write of the pc with the register as it reads. -/
theorem branchRegisterJumpsToItsRegister : Obligations.BranchRegisterJumpsToItsRegister := fun xn s =>
  ⟨_, rfl, s.x_eq_regResult xn, setPc_frame s _⟩

end Sys2Proof.Machine

/-!
SUPPORT. The outcomes that `exec` cannot give: a refusal, and a fault other than that of an access out of range.
-/

namespace Sys2Proof.Machine

theorem bytes_eq_four_or_eight (sf : Width) : sf.bytes = 4 ∨ sf.bytes = 8 := by
  cases sf with
  | w32 => exact .inl rfl
  | w64 => exact .inr rfl

/-- Every instruction has a meaning: none of the cases of `exec` is a refusal. -/
theorem exec_ne_refused (i : Instr) (s : State) (r : Refusal) : exec i s ≠ .refused r := by
  intro h
  obtain ⟨-, hn⟩ | ⟨t, hn, -⟩ | ⟨-, addr, sf, hf, -⟩ := exec_cases i s
  · rw [hn] at h; cases h
  · rw [hn] at h; cases h
  · rw [hf] at h; cases h

/-- Settles O42: no case of `exec` is a refusal, and its faults are those of the accesses, of 4 or 8 bytes each. -/
theorem executionFaultsOnlyOutOfBounds : Obligations.ExecutionFaultsOnlyOutOfBounds := by
  refine fun i s => ⟨exec_ne_refused i s, fun e h => ?_⟩
  obtain ⟨ht, addr, sf, he, hb⟩ := exec_fault h
  exact ⟨ht, addr.toNat, sf.bytes, he, bytes_eq_four_or_eight sf, hb⟩

end Sys2Proof.Machine

/-!
SUPPORT. The dump: its digits and lines as the text R350 and R351 give them, and the addresses it lists.
-/

namespace Sys2Proof.Machine

/-! ### Digits -/

theorem hexDigit_eq_digitChar : ∀ d : BitVec 4, hexDigit d = Nat.digitChar d.toNat := by decide

/-- Hex digit `n` of a value, counted from the low end. -/
theorem bitField_nibble_toNat {w : Nat} (v : BitVec w) (n : Nat) :
    (bitField v (4 * n) 4).toNat = v.toNat / 16 ^ n % 16 := by
  rw [bitField, BitVec.extractLsb'_toNat, Nat.shiftRight_eq_div_pow, Nat.pow_mul]

theorem hexText_succ (v n : Nat) : hexText v (n + 1) = Nat.digitChar (v / 16 ^ n % 16) :: hexText v n := by
  simp [hexText, List.range_succ_eq_map, Function.comp_def, Nat.sub_sub, Nat.add_comm]

theorem hexDigits_eq_hexText {w : Nat} (v : BitVec w) (n : Nat) : hexDigits v n = hexText v.toNat n := by
  induction n with
  | zero => rfl
  | succ n ih => rw [hexDigits, hexText_succ, hexDigit_eq_digitChar, bitField_nibble_toNat, ih]

theorem decimalDigit_eq_digitChar : ∀ d < 10, Char.ofNat (48 + d) = Nat.digitChar d := by decide

theorem twoDigits_eq {i : Nat} (h : i < 100) : twoDigits i = [Nat.digitChar (i / 10), Nat.digitChar (i % 10)] := by
  rw [twoDigits, decimalDigit_eq_digitChar _ (by omega), decimalDigit_eq_digitChar _ (by omega)]

/-! ### Lines -/

theorem registerLine_eq (s : State) {i : Nat} (h : i < 100) :
    registerLine s i = 'X' :: Nat.digitChar (i / 10) :: Nat.digitChar (i % 10) :: "    = ".toList ++
      hexText (s.x (BitVec.ofNat 5 i)).toNat 16 ++ ['\n'] := by
  rw [registerLine, twoDigits_eq h, hexDigits_eq_hexText]; rfl

theorem pcLine_eq (s : State) : pcLine s = "PC     = ".toList ++ hexText s.pc.toNat 16 ++ ['\n'] := by
  rw [pcLine, hexDigits_eq_hexText]; rfl

/-- An address of the memory fits the 8 digits of its line (R61, R351). -/
theorem memoryLine_eq (m : Memory) {a : Nat} (h : a < 2 ^ 32) :
    memoryLine m a =
      "0x".toList ++ hexText a 8 ++ ": ".toList ++ hexText (Memory.load32 m a).toNat 8 ++ ['\n'] := by
  rw [memoryLine, hexDigits_eq_hexText, hexDigits_eq_hexText, BitVec.toNat_ofNat, Nat.mod_eq_of_lt h]; rfl

/-- Settles O59: the register lines and the pc line as text; the headings and the flags line are spelled out. -/
theorem dumpPrintsRegistersPcAndFlags : Obligations.DumpPrintsRegistersPcAndFlags := by
  intro s
  refine ⟨(dumpAddrs s.mem).flatMap (memoryLine s.mem), ?_⟩
  rw [dump, List.flatMap_congr (l := List.range 31) fun i hi => registerLine_eq s (by rw [List.mem_range] at hi; omega),
    pcLine_eq]
  simp only [List.append_assoc]
  rfl

/-! ### The listed addresses -/

theorem alignedAddrs_cons (cell : Host.Cell) (rest : Memory) :
    alignedAddrs (cell :: rest) =
      if (alignedAddrs rest).head? = some (cell.1 / 4 * 4) then alignedAddrs rest
      else cell.1 / 4 * 4 :: alignedAddrs rest := by
  rw [alignedAddrs]
  cases alignedAddrs rest with
  | nil => rfl
  | cons b more => simp only [List.head?_cons, Option.some_inj]

theorem mem_alignedAddrs {m : Memory} {x : Nat} : x ∈ alignedAddrs m ↔ ∃ cell ∈ m, cell.1 / 4 * 4 = x := by
  induction m with
  | nil => simp [alignedAddrs]
  | cons cell rest ih =>
    rw [alignedAddrs_cons, List.exists_mem_cons_iff, ← ih]
    split
    · rename_i hhead
      have hlisted : cell.1 / 4 * 4 ∈ alignedAddrs rest := List.mem_of_head? hhead
      exact (or_iff_right_of_imp fun h => h ▸ hlisted).symm
    · rw [List.mem_cons, eq_comm]

/-- Rising cells give strictly rising words: a word shared with the cell before is the first one of the rest. -/
theorem alignedAddrs_pairwise {m : Memory} (h : m.Pairwise fun p q => p.1 < q.1) :
    (alignedAddrs m).Pairwise (· < ·) := by
  induction m with
  | nil => exact List.Pairwise.nil
  | cons cell rest ih =>
    obtain ⟨hcell, hrest⟩ := List.pairwise_cons.mp h
    have hle : ∀ x ∈ alignedAddrs rest, cell.1 / 4 * 4 ≤ x := by
      intro x hx
      obtain ⟨c, hc, rfl⟩ := mem_alignedAddrs.mp hx
      have := hcell c hc
      omega
    rw [alignedAddrs_cons]
    split
    · exact ih hrest
    · rename_i hhead
      refine List.isChain_iff_pairwise.mp (List.isChain_cons.mpr ⟨fun b hb => ?_, (ih hrest).isChain⟩)
      exact lt_of_le_of_ne (hle b (List.mem_of_head? hb)) fun h => hhead (h ▸ hb)

theorem exists_read_ne_of_load32_ne {m : Memory} {a : Nat} (h : Memory.load32 m a ≠ 0#32) :
    ∃ k < 4, Memory.read m (a + k) ≠ 0#8 := by
  by_contra hzero
  push Not at hzero
  have hfirst : Memory.read m a = 0#8 := hzero 0 (by decide)
  refine h ?_
  rw [Memory.load32, hfirst, hzero 1 (by decide), hzero 2 (by decide), hzero 3 (by decide)]
  rfl

/-- The words R351 lists: a word that is not 0 has a listed byte, and a listed byte lies in the memory. -/
theorem mem_dumpAddrs {m : Memory} (hwf : Memory.wf m) (hspace : Memory.inSpace m) {a : Nat} :
    a ∈ dumpAddrs m ↔ a % 4 = 0 ∧ a ≤ Config.memSize - 4 ∧ Memory.load32 m a ≠ 0#32 := by
  rw [dumpAddrs, List.mem_filter, mem_alignedAddrs, bne_iff_ne]
  constructor
  · rintro ⟨⟨cell, hcell, rfl⟩, hword⟩
    have hlt : cell.1 < 2097152 := hspace cell hcell
    exact ⟨by omega, by unfold Config.memSize; omega, hword⟩
  · rintro ⟨halign, -, hword⟩
    obtain ⟨k, hk, hbyte⟩ := exists_read_ne_of_load32_ne hword
    have hcell : (a + k, Memory.read m (a + k)) ∈ m := (Memory.mem_iff_read hwf _).mpr ⟨hbyte, rfl⟩
    exact ⟨⟨_, hcell, by dsimp only; omega⟩, hword⟩

/-! ### The memory lines -/

/-- The registers, pc and flags print the same whatever the memory, and an empty memory prints no line. -/
theorem dump_eq_append (s : State) :
    dump s = dump { s with mem := [] } ++ (dumpAddrs s.mem).flatMap (memoryLine s.mem) := by
  have hempty : dumpAddrs [] = [] := rfl
  simp only [dump, hempty, List.flatMap_nil, List.append_nil]
  rfl

/-- Settles O60: the listed addresses are rising, are the aligned words that are not 0, and fit their lines. -/
theorem dumpListsTheNonZeroAlignedWords : Obligations.DumpListsTheNonZeroAlignedWords := by
  intro s ⟨hwf, hspace⟩
  refine ⟨_, dumpAddrs s.mem, ?_, rfl, (alignedAddrs_pairwise hwf.1).filter _, fun _ => mem_dumpAddrs hwf hspace⟩
  rw [dump_eq_append]
  congr 1
  refine List.flatMap_congr fun a ha => memoryLine_eq s.mem ?_
  obtain ⟨-, hfit, -⟩ := (mem_dumpAddrs hwf hspace).mp ha
  unfold Config.memSize at hfit
  omega

end Sys2Proof.Machine
